-- ==== Sys2Proof/Word.lean ====
section
/-! DEFINITION. The word types of the block (spec/00_scope.md R4, R5): an unsigned 32-bit word, a byte, and the
sixteen-word file that the state, the working buffer and an output block all are. -/

namespace Sys2Proof

/-- A word: an unsigned 32-bit integer, bit 0 least significant (R5). -/
abbrev Word := BitVec 32

/-- A byte: an unsigned integer from 0 to 255 (R5). -/
abbrev Byte := BitVec 8

/-- Sixteen words, word 0 first: the state viewed whole, the working buffer, or an output block (R4 `STATE_WORDS`). -/
abbrev Block := Vector Word 16

/-- A legal value of the sequencer index `q`: 0 to 80 (R20). The 7-bit values 81 to 127 never occur and R50 asks that
they be unrepresentable. -/
abbrev SeqIndex := Fin 81

end Sys2Proof
end

