-- ==== Sys2Proof/Config.lean ====
section
/-! DEFINITION. The free values of the model: what the words that hold "no value" after RESET contain
(spec/10_state.md R25, spec/70_reset_and_hazards.md R160, R162). Nothing about them can be proved, so every claim holds
whatever they are (DESIGN CHOICE, notes/assumptions/1.md and 2.md). -/

namespace Sys2Proof

/-- What a word that holds "no value" contains: the first argument is the number of the draw (one draw per RESET), the
second the word's position (4 to 15: `s[4]` to `s[15]`; 16 to 31: `w[0]` to `w[15]`). A free value (R25; log 1). -/
opaque Config.noValueWord : Nat → Nat → Word

/-- What the unspecified sequencer index contains after the given draw. A free value (R25; log 1). -/
opaque Config.noValueIndex : Nat → SeqIndex

/-- The key words `s[4]` to `s[11]` with no value (R25). -/
def Config.noValueKey (d : Nat) : Vector Word 8 :=
  #v[noValueWord d 4, noValueWord d 5, noValueWord d 6, noValueWord d 7,
     noValueWord d 8, noValueWord d 9, noValueWord d 10, noValueWord d 11]

/-- The nonce words `s[13]` to `s[15]` with no value (R25). -/
def Config.noValueNonce (d : Nat) : Vector Word 3 :=
  #v[noValueWord d 13, noValueWord d 14, noValueWord d 15]

/-- The working buffer with no value (R25). -/
def Config.noValueBuffer (d : Nat) : Block :=
  #v[noValueWord d 16, noValueWord d 17, noValueWord d 18, noValueWord d 19,
     noValueWord d 20, noValueWord d 21, noValueWord d 22, noValueWord d 23,
     noValueWord d 24, noValueWord d 25, noValueWord d 26, noValueWord d 27,
     noValueWord d 28, noValueWord d 29, noValueWord d 30, noValueWord d 31]

end Sys2Proof
end

