-- ==== Sys2Proof/Syntax.lean ====
section
/-! DEFINITION. The operations of the block as syntax: one constructor of `Instr` per row of spec/opcode_table.json, the
request record, the items of a program and the encoded forms a decoder reads (spec/30_encoding.md). -/

namespace Sys2Proof

/-- A request record (R45). `key` and `nonce` are byte sequences of any length, so that the length checks of INIT are
expressible. -/
structure Request where
  op    : BitVec 2
  key   : List Byte
  nonce : List Byte
  ctr   : Word
deriving DecidableEq, Repr

/-- An item of a program (R58): the RESET event, or a request. -/
inductive Item where
  /-- The RESET event, written in line with the commands (R56). -/
  | reset
  /-- One request is one command (R45). -/
  | request (r : Request)
deriving DecidableEq, Repr

/-- Everything a decoder of this block reads (R55): a request on `op[1:0]`, a sequencer index `q[6:0]`, or the RESET
input. The three are different words and are never decoded together. -/
inductive Code where
  | request (r : Request)
  | index (q : BitVec 7)
  | resetEvent
deriving DecidableEq, Repr

/-- The operations of spec/opcode_table.json, one constructor per row. In the micro-operations `r` is the double-round
number `q[6:3]`, 0 to 9 (R54). -/
inductive Instr where
  /-- NOP, `op = 00` (R47, R86). -/
  | nop
  /-- INIT, `op = 01` (R48, R65). -/
  | init (key nonce : List Byte) (ctr : Word)
  /-- NEXT, `op = 10` (R49, R80). -/
  | next
  /-- The reserved code, `op = 11` (R50). -/
  | rsvd
  /-- Column quarter round 0 of double round `r` (R54). -/
  | qrC0 (r : Fin 10)
  /-- Column quarter round 1 of double round `r` (R54). -/
  | qrC1 (r : Fin 10)
  /-- Column quarter round 2 of double round `r` (R54). -/
  | qrC2 (r : Fin 10)
  /-- Column quarter round 3 of double round `r` (R54). -/
  | qrC3 (r : Fin 10)
  /-- Diagonal quarter round 0 of double round `r` (R54). -/
  | qrD0 (r : Fin 10)
  /-- Diagonal quarter round 1 of double round `r` (R54). -/
  | qrD1 (r : Fin 10)
  /-- Diagonal quarter round 2 of double round `r` (R54). -/
  | qrD2 (r : Fin 10)
  /-- Diagonal quarter round 3 of double round `r` (R54). -/
  | qrD3 (r : Fin 10)
  /-- Feed-forward, deliver, advance, `q = 80` (R124). -/
  | ffwd
  /-- The micro-step that accepts a NEXT (R121). -/
  | acceptNext
  /-- The RESET event (R59, R160). -/
  | reset
  /-- Addition modulo 2^32 (R105). -/
  | add32 (x y : Word)
  /-- Bitwise exclusive-or (R106). -/
  | xor32 (x y : Word)
  /-- Rotate left; amounts of 32 or more are outside the domain and unrepresentable (R107, R108). -/
  | rotl32 (v : Word) (n : Fin 32)
  /-- Little-endian decoder; it must fail on a length other than 4 (R70, R71). -/
  | le32 (b : List Byte)
  /-- Little-endian encoder (R109). -/
  | le32enc (v : Word)
  /-- Quarter round on four positions of the working buffer (R93). -/
  | qr (a b c d : Fin 16)
  /-- Column round of the working buffer (R96). -/
  | colround
  /-- Diagonal round of the working buffer (R97). -/
  | diaground
  /-- Double round of the working buffer (R92). -/
  | dround
  /-- Copy the state into the working buffer (R91). -/
  | copy
  /-- Feed-forward: working buffer plus state, word by word (R98). -/
  | feedfwd
  /-- The block transform of the state (R90). -/
  | block
  /-- The counter advance of a counter value (R84). -/
  | ctrinc (c : Word)
  /-- The pseudo-command NEXTN: `n` consecutive NEXT (R57). -/
  | nextn (n : Nat)
deriving DecidableEq, Repr

end Sys2Proof
end

