-- ==== Sys2Proof/Machine/State.lean ====
section
/-! DEFINITION. The state of the block as plain data (spec/10_state.md), the codes of recorded faults, the responses, the
reasons a meaning of the model can stop, and the state after RESET (R25). -/

namespace Sys2Proof.Machine

/-- The value of the block's `fault` field and of a response's `status` (R17, R52, R140). The 3-bit codes 3, 6 and 7 are
never written and R50 asks that they be unrepresentable; `Status.code` in Machine/Flags.lean gives the bits. -/
inductive Status where
  /-- Code 0: no fault recorded. -/
  | ok
  /-- Code 1, raised by INIT when `len(key) ≠ 32`. -/
  | invalidKeyLength
  /-- Code 2, raised by INIT when `len(key) = 32` and `len(nonce) ≠ 12`. -/
  | invalidNonceLength
  /-- Code 4, raised by NEXT when no INIT has succeeded since RESET. -/
  | notLoaded
  /-- Code 5, raised by the reserved command code. -/
  | illegalCommand
deriving DecidableEq, Repr

/-- A response record (R52). `data` is absent unless the response is that of a successful NEXT. -/
structure Response where
  status : Status
  data   : Option Block
deriving DecidableEq, Repr

/-- STEP_GRANULARITY (R128, parameter P2): whether a NEXT is one atomic step or a run of micro-steps. -/
inductive Level where
  /-- The normative level: one command is one step (R8, R36). -/
  | transaction
  /-- The refined level: ACCEPT-NEXT, one quarter round per step, FFWD (R120, R128). -/
  | microStep
deriving DecidableEq, Repr

/-- The value of a pure function of the opcode table (R55), as the model shows it (log 6). -/
inductive Value where
  | none
  | word (v : Word)
  | bytes (b : List Byte)
  | block (b : Block)
deriving DecidableEq, Repr

/-- Why a meaning of the model stops with a fault. Recorded faults of the block (R140) are not among these: recording one
is a next state (R146). -/
inductive Fault where
  /-- Raised by the function LE32 given `n ≠ 4` bytes: the decoder "must fail (abort/error) if given any length other
  than 4" (R71). No command reaches it (R142). Safe: the spec gives no value there. -/
  | invalidWordLength (n : Nat)
deriving DecidableEq, Repr

/-- Why a meaning of the model refuses. -/
inductive Refusal where
  /-- An operation without a meaning yet, by its mnemonic (exec's refused arms only). Safe. -/
  | notModelled (mnemonic : String)
  /-- Raised by the micro-steps ACCEPT-NEXT, QR-STEP and FFWD in a state where the spec does not enable them
  (R121, R122, R124). `step` issues none of them there. Safe: the spec has no such step (log 7). -/
  | notEnabled (mnemonic : String)
  /-- Raised by QR on positions that are not four distinct ones (R93, R94). Safe: outside the function's domain
  (log 14). -/
  | positionsNotDistinct
  /-- Raised by `step` on a sequencer index the decoder refuses (R20, R50). No state holds one, so it is never raised.
  Safe. -/
  | noSuchIndex
deriving DecidableEq, Repr

/-- Everything the spec gives the block, and two fields of the model's own (`draws`, `result`). The constants `s[0]` to
`s[3]` are hardwired and no storage (R11): `State.words` in Machine/Operands.lean reads them. -/
structure State where
  /-- `s[4]` to `s[11]`, the key words (R12). -/
  key       : Vector Word 8
  /-- `s[12]`, the block counter (R13). -/
  ctr       : Word
  /-- `s[13]` to `s[15]`, the nonce words (R14). -/
  nonce     : Vector Word 3
  /-- An INIT has succeeded since the last RESET (R16). -/
  loaded    : Bool
  /-- The recorded fault (R17). -/
  fault     : Status
  /-- A NEXT is in progress at the micro-step level (R18). -/
  busy      : Bool
  /-- The sequencer index (R20). -/
  q         : SeqIndex
  /-- The working buffer (R21). -/
  w         : Block
  /-- The step granularity, a parameter no step changes (R128; log 3). -/
  level     : Level
  /-- The RESET input: an event that has arrived and is taken by the next step (R59; log 4). -/
  resetLine : Bool
  /-- What the host has presented and the block has not taken yet, head first (R45, R126; log 4). -/
  channel   : List Item
  /-- The responses delivered so far, oldest first (R52, R164; log 5). -/
  responses : List Response
  /-- The model's own: how many draws of free values have been taken (log 2). -/
  draws     : Nat
  /-- The model's own: the value of the last pure function evaluated (log 6). -/
  result    : Value
deriving DecidableEq, Repr

/-- The block right after RESET (R25): no generator, no fault, not busy, no response pending, and every word the spec
gives "no value" a free value of draw 0 (log 1). The model runs at the micro-step level unless its state says otherwise
(log 3). -/
def State.reset : State where
  key       := Config.noValueKey 0
  ctr       := Config.noValueWord 0 12
  nonce     := Config.noValueNonce 0
  loaded    := false
  fault     := .ok
  busy      := false
  q         := Config.noValueIndex 0
  w         := Config.noValueBuffer 0
  level     := .microStep
  resetLine := false
  channel   := []
  responses := []
  draws     := 1
  result    := .none

end Sys2Proof.Machine
end

