-- ==== Sys2Proof/Machine/Operands.lean ====
section
/-! DEFINITION. Operand and result data (spec/20_memory.md, spec/40_construction.md R70, R71): byte sequences of a fixed
length, the little-endian decoder and encoder, the words INIT loads, the state viewed as sixteen words, the byte view of
an output block, and the pin-level layout (R44). -/

namespace Sys2Proof.Machine

/-- A byte sequence as exactly `n` bytes, if it has that length; it is never padded or truncated (R34, R66, R71). -/
def exactBytes (n : Nat) (b : List Byte) : Option (Vector Byte n) :=
  if h : b.length = n then some ⟨b.toArray, by simpa using h⟩ else none

/-- LE32: four bytes to one word, byte 0 least significant: `b[3] ∥ b[2] ∥ b[1] ∥ b[0]` (R70). -/
def le32 (b : Vector Byte 4) : Word := b[3] ++ b[2] ++ b[1] ++ b[0]

/-- LE32ENC: one word to four bytes, least significant first (R109). -/
def le32enc (v : Word) : Vector Byte 4 :=
  #v[v.extractLsb' 0 8, v.extractLsb' 8 8, v.extractLsb' 16 8, v.extractLsb' 24 8]

/-- The four bytes of `b` from offset `k`: `MemRead(b, k, 4)` (R6). -/
def fourBytes {n : Nat} (b : Vector Byte n) (k : Nat) (h : k + 4 ≤ n) : Vector Byte 4 :=
  #v[b[k], b[k + 1], b[k + 2], b[k + 3]]

/-- The eight key words: word i is LE32 of bytes 4i to 4i+3 (R31). -/
def keyWords (key : Vector Byte 32) : Vector Word 8 :=
  #v[le32 (fourBytes key 0 (by omega)), le32 (fourBytes key 4 (by omega)),
     le32 (fourBytes key 8 (by omega)), le32 (fourBytes key 12 (by omega)),
     le32 (fourBytes key 16 (by omega)), le32 (fourBytes key 20 (by omega)),
     le32 (fourBytes key 24 (by omega)), le32 (fourBytes key 28 (by omega))]

/-- The three nonce words: word i is LE32 of bytes 4i to 4i+3 (R32). -/
def nonceWords (nonce : Vector Byte 12) : Vector Word 3 :=
  #v[le32 (fourBytes nonce 0 (by omega)), le32 (fourBytes nonce 4 (by omega)),
     le32 (fourBytes nonce 8 (by omega))]

/-- The sixteen words `f 0` to `f 15`. -/
def blockOf (f : Fin 16 → Word) : Block :=
  #v[f 0, f 1, f 2, f 3, f 4, f 5, f 6, f 7, f 8, f 9, f 10, f 11, f 12, f 13, f 14, f 15]

/-- The sixteen state words of a key, a counter and a nonce, the first four the hardwired constants (R10, R11). -/
def wordsOf (key : Vector Word 8) (ctr : Word) (nonce : Vector Word 3) : Block :=
  #v[0x61707865, 0x3320646e, 0x79622d32, 0x6b206574,
     key[0], key[1], key[2], key[3], key[4], key[5], key[6], key[7],
     ctr, nonce[0], nonce[1], nonce[2]]

/-- `s[0]` to `s[15]` (R10). The constants read as themselves at all times (R11). -/
def State.words (s : State) : Block := wordsOf s.key s.ctr s.nonce

/-- Byte `n` of the 64-byte view of an output block: byte `n mod 4` of word `n div 4`, least significant first (R33). -/
def keystreamByte (out : Block) (n : Fin 64) : Byte :=
  (le32enc (out[n.val / 4]'(by omega)))[n.val % 4]'(by omega)

/-- The 64-byte view of an output block, word 0 first (R33). -/
def keystreamBytes (out : Block) : List Byte := (List.finRange 64).map (keystreamByte out)

/-- Key byte `k` is in bits `8k+7` down to `8k` of the 256-bit key bus (R44). -/
def keyBusBytes (bus : BitVec 256) : List Byte :=
  (List.range 32).map fun k => bus.extractLsb' (8 * k) 8

/-- Nonce byte `k` is in bits `8k+7` down to `8k` of the 96-bit nonce bus (R44). -/
def nonceBusBytes (bus : BitVec 96) : List Byte :=
  (List.range 12).map fun k => bus.extractLsb' (8 * k) 8

/-- The request a realization with parallel buses presents (R44). -/
def requestOfPins (op : BitVec 2) (keyBus : BitVec 256) (nonceBus : BitVec 96) (ctrBus : Word) : Request :=
  ⟨op, keyBusBytes keyBus, nonceBusBytes nonceBus, ctrBus⟩

/-- The 512-bit output bus: `out[i]` in bits `32i+31` down to `32i` (R44). -/
def outBus (out : Block) : BitVec 512 :=
  out[15] ++ out[14] ++ out[13] ++ out[12] ++ out[11] ++ out[10] ++ out[9] ++ out[8] ++
  out[7] ++ out[6] ++ out[5] ++ out[4] ++ out[3] ++ out[2] ++ out[1] ++ out[0]

end Sys2Proof.Machine
end

