-- ==== Sys2Proof/Machine/Flags.lean ====
section
/-! DEFINITION. The status conditions of the block. There are no arithmetic flags, condition codes or predicates
(spec/10_state.md R19): what stands in their place is the 3-bit fault code (spec/60_exceptions.md R140) and the
conditions the block tests, none of which looks at a key, nonce, counter or working word. -/

namespace Sys2Proof.Machine

/-- The 3-bit code of a status (R140). Codes 3, 6 and 7 are no status's (R17). -/
def Status.code : Status → BitVec 3
  | .ok => 0
  | .invalidKeyLength => 1
  | .invalidNonceLength => 2
  | .notLoaded => 4
  | .illegalCommand => 5

/-- A fault is recorded: `fault ≠ 0` (R17). -/
def State.faulted (s : State) : Bool := s.fault ≠ .ok

/-- ACCEPT-NEXT is enabled, its request apart: `busy = 0`, `fault = 0`, `loaded = 1` (R121). -/
def State.acceptEnabled (s : State) : Bool := !s.busy && !s.faulted && s.loaded

/-- QR-STEP of the given double round and slot is enabled: `busy = 1` and `q` selects it (R54, R122). -/
def State.slotEnabled (s : State) (r : Fin 10) (slot : Fin 8) : Bool :=
  s.busy && s.q.val = 8 * r.val + slot.val

/-- FFWD is enabled: `busy = 1` and `q = 80` (R124). -/
def State.ffwdEnabled (s : State) : Bool := s.busy && s.q.val = 80

end Sys2Proof.Machine
end

