-- ==== Sys2Proof/Machine/Ops.lean ====
section
/-! DEFINITION. The operations the meanings share: the arithmetic primitives (spec/43_primitives.md), the block transform
(spec/42_block_transform.md), the response channel, taking a fault (spec/60_exceptions.md R146), refusing while one is
recorded (R147), loading a generator, producing a block, and RESET (spec/70_reset_and_hazards.md R160), which is the only
way out of a fault (R148). -/

namespace Sys2Proof.Machine

/-- ADD32: addition modulo 2^32; the carry out of bit 31 is discarded (R105). -/
def add32 (x y : Word) : Word := x + y

/-- XOR32: bitwise exclusive-or (R106). -/
def xor32 (x y : Word) : Word := x ^^^ y

/-- ROTL32: rotate left by 0 to 31 places (R107); amount 0 is the identity (R108). -/
def rotl32 (v : Word) (n : Fin 32) : Word := (v <<< n.val) ||| (v >>> (32 - n.val))

/-- CTRINC: add one to a counter value, modulo 2^32 (R84). -/
def ctrInc (c : Word) : Word := add32 c 1

/-- QR: the quarter round on four positions of a buffer, eight assignments in order, each using what the earlier ones
wrote (R93, R94). -/
def quarterRound (w : Block) (a b c d : Fin 16) : Block :=
  let w := w.set a (add32 w[a] w[b])
  let w := w.set d (rotl32 (xor32 w[d] w[a]) 16)
  let w := w.set c (add32 w[c] w[d])
  let w := w.set b (rotl32 (xor32 w[b] w[c]) 12)
  let w := w.set a (add32 w[a] w[b])
  let w := w.set d (rotl32 (xor32 w[d] w[a]) 8)
  let w := w.set c (add32 w[c] w[d])
  w.set b (rotl32 (xor32 w[b] w[c]) 7)

/-- The eight tuples, slots 0 to 3 the columns and 4 to 7 the diagonals (R95). -/
def tuple : Fin 8 → Fin 16 × Fin 16 × Fin 16 × Fin 16
  | 0 => (0, 4, 8, 12)
  | 1 => (1, 5, 9, 13)
  | 2 => (2, 6, 10, 14)
  | 3 => (3, 7, 11, 15)
  | 4 => (0, 5, 10, 15)
  | 5 => (1, 6, 11, 12)
  | 6 => (2, 7, 8, 13)
  | 7 => (3, 4, 9, 14)

/-- The quarter round of a slot (R95, R122). -/
def slotRound (w : Block) (slot : Fin 8) : Block :=
  quarterRound w (tuple slot).1 (tuple slot).2.1 (tuple slot).2.2.1 (tuple slot).2.2.2

/-- COLROUND: the four column quarter rounds (R96). -/
def columnRound (w : Block) : Block :=
  slotRound (slotRound (slotRound (slotRound w 0) 1) 2) 3

/-- DIAGROUND: the four diagonal quarter rounds (R97). -/
def diagonalRound (w : Block) : Block :=
  slotRound (slotRound (slotRound (slotRound w 4) 5) 6) 7

/-- DROUND: the column round first, then the diagonal round (R92). -/
def doubleRound (w : Block) : Block := diagonalRound (columnRound w)

/-- `n` double rounds, one after another on the same buffer (R92). -/
def doubleRounds : Nat → Block → Block
  | 0, w => w
  | n + 1, w => doubleRound (doubleRounds n w)

/-- The working buffer after the ten double rounds of a block: exactly 80 quarter rounds (R92, conflict C1). -/
def mixed (words : Block) : Block := doubleRounds 10 words

/-- FEEDFWD: the original state added to the worked buffer, word by word, with no carry between words (R98). -/
def feedForward (w words : Block) : Block := blockOf fun i => add32 w[i] words[i]

/-- BLOCK: copy, ten double rounds, feed-forward (R90). -/
def blockTransform (words : Block) : Block := feedForward (mixed words) words

/-- Delivers a response. Its status is the `fault` field after the command (R52). -/
def State.respond (s : State) (data : Option Block) : State :=
  { s with responses := s.responses ++ [⟨s.fault, data⟩] }

/-- TAKING A FAULT (R146): `fault <- k`, a response with that status and no data, and nothing else. -/
def State.raise (s : State) (k : Status) : State :=
  ({ s with fault := k }).respond none

/-- What every command that responds does first: while a fault is recorded the command is answered with it and does
nothing else (R147). -/
def State.unlessFaulted (s : State) (body : State) : State :=
  if s.faulted then s.respond none else body

/-- The parallel load of INIT: key, counter and nonce words and `loaded`, then the response (R65). -/
def State.load (s : State) (key : Vector Byte 32) (nonce : Vector Byte 12) (ctr : Word) : State :=
  ({ s with key := keyWords key, ctr := ctr, nonce := nonceWords nonce, loaded := true }).respond none

/-- The INIT command: the key's length is checked first, the nonce's second, before any write (R65, R66). -/
def State.init (s : State) (key nonce : List Byte) (ctr : Word) : State :=
  s.unlessFaulted <|
    match exactBytes 32 key with
    | none => s.raise .invalidKeyLength
    | some k =>
      match exactBytes 12 nonce with
      | none => s.raise .invalidNonceLength
      | some n => s.load k n ctr

/-- The effect of a NEXT (R80): the block of the state as it stands, then the counter advance (R81, R84). The buffer keeps
the post-round words (R22). -/
def State.advance (s : State) : State :=
  ({ s with w := mixed s.words, ctr := ctrInc s.ctr }).respond (some (blockTransform s.words))

/-- The NEXT command at the transaction level, one atomic step: NotLoaded when no INIT has succeeded since RESET
(R80, R143). -/
def State.next (s : State) : State :=
  s.unlessFaulted (if s.loaded then s.advance else s.raise .notLoaded)

/-- The reserved command code: IllegalCommand, whatever `loaded` is (R50, R144). -/
def State.reserved (s : State) : State := s.unlessFaulted (s.raise .illegalCommand)

/-- `n` consecutive NEXT commands (R57). -/
def State.nextTimes (s : State) : Nat → State
  | 0 => s
  | n + 1 => (s.nextTimes n).next

/-- ACCEPT-NEXT: the copy, `q <- 0`, `busy <- 1` (R121). -/
def State.accept (s : State) : State := { s with w := s.words, q := 0, busy := true }

/-- QR-STEP: the quarter round of the slot, then `q <- q + 1` (R122). -/
def State.slotStep (s : State) (r : Fin 10) (slot : Fin 8) : State :=
  { s with w := slotRound s.w slot, q := ⟨8 * r.val + slot.val + 1, by omega⟩ }

/-- FFWD: feed-forward from the counter as it was, counter advance, `busy <- 0`, and the response with status 0, all in one
step; `w` and `q` keep their values (R124). -/
def State.deliver (s : State) : State :=
  { s with
    ctr := ctrInc s.ctr
    busy := false
    responses := s.responses ++ [⟨.ok, some (feedForward s.w s.words)⟩] }

/-- RESET (R160): no generator, no fault, not busy; `s[4]` to `s[15]`, `w` and `q` hold no value: free values of a fresh
draw (R162; log 1, log 2). It makes no response and leaves delivered ones and requests not yet taken alone (R129). -/
def State.clear (s : State) : State :=
  { s with
    key    := Config.noValueKey s.draws
    ctr    := Config.noValueWord s.draws 12
    nonce  := Config.noValueNonce s.draws
    loaded := false
    fault  := .ok
    busy   := false
    q      := Config.noValueIndex s.draws
    w      := Config.noValueBuffer s.draws
    draws  := s.draws + 1 }

end Sys2Proof.Machine
end

