-- ==== Sys2Proof/Machine/Commands.lean ====
section
/-! DEFINITION. The host's commands at the transaction level (spec/30_encoding.md R46): NOP, INIT, NEXT, the reserved
code, and the pseudo-command NEXTN. `step` takes none of them while the block is busy (R126; log 10). -/

namespace Sys2Proof.Machine

/-- NOP: no state change, no response, no fault, whatever is recorded (R86). -/
def execNop (s : State) : Host.Outcome State Fault Refusal := .next s

/-- INIT (R65). -/
def execInit (key nonce : List Byte) (ctr : Word) (s : State) : Host.Outcome State Fault Refusal :=
  .next (s.init key nonce ctr)

/-- NEXT (R80). -/
def execNext (s : State) : Host.Outcome State Fault Refusal := .next s.next

/-- The reserved code `op = 11` (R50, R144). -/
def execRsvd (s : State) : Host.Outcome State Fault Refusal := .next s.reserved

/-- NEXTN n: n consecutive NEXT, n responses (R57). -/
def execNextn (n : Nat) (s : State) : Host.Outcome State Fault Refusal := .next (s.nextTimes n)

end Sys2Proof.Machine
end

