-- ==== Sys2Proof/Machine/Events.lean ====
section
/-! DEFINITION. The RESET event (spec/70_reset_and_hazards.md R160, spec/44_sequencer.md R129). -/

namespace Sys2Proof.Machine

/-- RESET, in either phase: back to the empty condition, no response; a NEXT in progress is abandoned (R129, R160). -/
def execReset (s : State) : Host.Outcome State Fault Refusal := .next s.clear

end Sys2Proof.Machine
end

