-- ==== Sys2Proof/Machine/Primitives.lean ====
section
/-! DEFINITION. The pure word functions of the opcode table: ADD32, XOR32, ROTL32, LE32, LE32ENC, CTRINC
(spec/43_primitives.md, spec/40_construction.md R70, spec/41_advance.md R84). They read and write no state of the block
(R55); the model shows the value in its own field `result` (log 6). -/

namespace Sys2Proof.Machine

/-- ADD32 (R105). -/
def execAdd32 (x y : Word) (s : State) : Host.Outcome State Fault Refusal :=
  .next { s with result := .word (add32 x y) }

/-- XOR32 (R106). -/
def execXor32 (x y : Word) (s : State) : Host.Outcome State Fault Refusal :=
  .next { s with result := .word (xor32 x y) }

/-- ROTL32 (R107, R108). -/
def execRotl32 (v : Word) (n : Fin 32) (s : State) : Host.Outcome State Fault Refusal :=
  .next { s with result := .word (rotl32 v n) }

/-- LE32 (R70); on a length other than 4 it fails (R71; log 8). -/
def execLe32 (b : List Byte) (s : State) : Host.Outcome State Fault Refusal :=
  match exactBytes 4 b with
  | some v => .next { s with result := .word (le32 v) }
  | none => .fault (.invalidWordLength b.length)

/-- LE32ENC (R109). -/
def execLe32enc (v : Word) (s : State) : Host.Outcome State Fault Refusal :=
  .next { s with result := .bytes (le32enc v).toList }

/-- CTRINC (R84): the advance of a counter value. Writing it back to `s[12]` is NEXT's and FFWD's part. -/
def execCtrinc (c : Word) (s : State) : Host.Outcome State Fault Refusal :=
  .next { s with result := .word (ctrInc c) }

end Sys2Proof.Machine
end

