-- ==== Sys2Proof/Machine/Sequencer.lean ====
section
/-! DEFINITION. The micro-steps of the quarter-round engine (spec/44_sequencer.md): ACCEPT-NEXT, one QR-STEP per slot of
the table of R54, and FFWD. A micro-step has its effect in the states that enable it and is refused by name elsewhere
(log 7); `step` issues it only where it is enabled. -/

namespace Sys2Proof.Machine

/-- ACCEPT-NEXT (R121). -/
def execAcceptNext (s : State) : Host.Outcome State Fault Refusal :=
  if s.acceptEnabled then .next s.accept else .refused (.notEnabled "ACCEPT-NEXT")

/-- QR-STEP: the quarter round in slot `slot` of double round `r`, then `q <- q + 1` (R122). -/
def qrStep (mnemonic : String) (r : Fin 10) (slot : Fin 8) (s : State) : Host.Outcome State Fault Refusal :=
  if s.slotEnabled r slot then .next (s.slotStep r slot) else .refused (.notEnabled mnemonic)

/-- QR_C0: tuple (0, 4, 8, 12) (R54). -/
def execQrC0 (r : Fin 10) (s : State) : Host.Outcome State Fault Refusal := qrStep "QR_C0" r 0 s

/-- QR_C1: tuple (1, 5, 9, 13) (R54). -/
def execQrC1 (r : Fin 10) (s : State) : Host.Outcome State Fault Refusal := qrStep "QR_C1" r 1 s

/-- QR_C2: tuple (2, 6, 10, 14) (R54). -/
def execQrC2 (r : Fin 10) (s : State) : Host.Outcome State Fault Refusal := qrStep "QR_C2" r 2 s

/-- QR_C3: tuple (3, 7, 11, 15) (R54). -/
def execQrC3 (r : Fin 10) (s : State) : Host.Outcome State Fault Refusal := qrStep "QR_C3" r 3 s

/-- QR_D0: tuple (0, 5, 10, 15) (R54). -/
def execQrD0 (r : Fin 10) (s : State) : Host.Outcome State Fault Refusal := qrStep "QR_D0" r 4 s

/-- QR_D1: tuple (1, 6, 11, 12) (R54). -/
def execQrD1 (r : Fin 10) (s : State) : Host.Outcome State Fault Refusal := qrStep "QR_D1" r 5 s

/-- QR_D2: tuple (2, 7, 8, 13) (R54). -/
def execQrD2 (r : Fin 10) (s : State) : Host.Outcome State Fault Refusal := qrStep "QR_D2" r 6 s

/-- QR_D3: tuple (3, 4, 9, 14) (R54). -/
def execQrD3 (r : Fin 10) (s : State) : Host.Outcome State Fault Refusal := qrStep "QR_D3" r 7 s

/-- FFWD (R124). -/
def execFfwd (s : State) : Host.Outcome State Fault Refusal :=
  if s.ffwdEnabled then .next s.deliver else .refused (.notEnabled "FFWD")

end Sys2Proof.Machine
end

