-- ==== Sys2Proof/WellFormed.lean ====
section
/-! DEFINITION. What makes an operation well formed, where its type does not say so already: LE32 is defined on exactly
four bytes (R71) and QR on four distinct positions (R93, R94). INIT takes operands of any length (R45): a wrong length is
a fault of the machine (R66), not an ill-formed request. -/

namespace Sys2Proof

/-- The four positions of a quarter round are distinct (R93: "four distinct indices from 0 to 15"). -/
def distinctPositions (a b c d : Fin 16) : Bool :=
  a ≠ b && a ≠ c && a ≠ d && b ≠ c && b ≠ d && c ≠ d

/-- The check of an operation's operands (R71, R93). -/
def Instr.wellFormed : Instr → Bool
  | .le32 b => b.length = 4
  | .qr a b c d => distinctPositions a b c d
  | .nop | .init _ _ _ | .next | .rsvd => true
  | .qrC0 _ | .qrC1 _ | .qrC2 _ | .qrC3 _ | .qrD0 _ | .qrD1 _ | .qrD2 _ | .qrD3 _ => true
  | .ffwd | .acceptNext | .reset => true
  | .add32 _ _ | .xor32 _ _ | .rotl32 _ _ | .le32enc _ => true
  | .colround | .diaground | .dround | .copy | .feedfwd | .block => true
  | .ctrinc _ | .nextn _ => true

end Sys2Proof
end

