-- ==== Sys2Proof/Machine/Transform.lean ====
section
/-! DEFINITION. The functions of the block transform (spec/42_block_transform.md): COPY, QR, COLROUND, DIAGROUND and
DROUND write the working buffer only; FEEDFWD writes nothing; BLOCK writes the working buffer and yields the output
block. None is a host command: the micro-steps of Machine/Sequencer.lean and NEXT use the same operations (log 6). -/

namespace Sys2Proof.Machine

/-- COPY: all sixteen words (R91). -/
def execCopy (s : State) : Host.Outcome State Fault Refusal :=
  .next { s with w := s.words }

/-- QR on four distinct positions of the working buffer (R93, R94; log 14). -/
def execQr (a b c d : Fin 16) (s : State) : Host.Outcome State Fault Refusal :=
  if distinctPositions a b c d then .next { s with w := quarterRound s.w a b c d }
  else .refused .positionsNotDistinct

/-- COLROUND (R96). -/
def execColround (s : State) : Host.Outcome State Fault Refusal :=
  .next { s with w := columnRound s.w }

/-- DIAGROUND (R97). -/
def execDiaground (s : State) : Host.Outcome State Fault Refusal :=
  .next { s with w := diagonalRound s.w }

/-- DROUND (R92). -/
def execDround (s : State) : Host.Outcome State Fault Refusal :=
  .next { s with w := doubleRound s.w }

/-- FEEDFWD: the block is returned; `w` and `s` are not changed (R98). -/
def execFeedfwd (s : State) : Host.Outcome State Fault Refusal :=
  .next { s with result := .block (feedForward s.w s.words) }

/-- BLOCK: writes `w` only and returns the output block (R90). -/
def execBlock (s : State) : Host.Outcome State Fault Refusal :=
  .next { s with w := mixed s.words, result := .block (blockTransform s.words) }

end Sys2Proof.Machine
end

