-- ==== Sys2Proof/Machine/Dispatch.lean ====
section
/-! DEFINITION. The meaning of each operation of spec/opcode_table.json: one arm per constructor. -/

namespace Sys2Proof.Machine

def exec (i : Instr) (s : State) : Host.Outcome State Fault Refusal :=
  match i with
  -- CMD
  | .nop => Sys2Proof.Machine.execNop s
  | .init key nonce ctr => Sys2Proof.Machine.execInit key nonce ctr s
  | .next => Sys2Proof.Machine.execNext s
  | .rsvd => Sys2Proof.Machine.execRsvd s
  -- SEQ
  | .qrC0 r => Sys2Proof.Machine.execQrC0 r s
  | .qrC1 r => Sys2Proof.Machine.execQrC1 r s
  | .qrC2 r => Sys2Proof.Machine.execQrC2 r s
  | .qrC3 r => Sys2Proof.Machine.execQrC3 r s
  | .qrD0 r => Sys2Proof.Machine.execQrD0 r s
  | .qrD1 r => Sys2Proof.Machine.execQrD1 r s
  | .qrD2 r => Sys2Proof.Machine.execQrD2 r s
  | .qrD3 r => Sys2Proof.Machine.execQrD3 r s
  | .ffwd => Sys2Proof.Machine.execFfwd s
  -- STEP
  | .acceptNext => Sys2Proof.Machine.execAcceptNext s
  -- EVENT
  | .reset => Sys2Proof.Machine.execReset s
  -- FUNC
  | .add32 x y => Sys2Proof.Machine.execAdd32 x y s
  | .xor32 x y => Sys2Proof.Machine.execXor32 x y s
  | .rotl32 v n => Sys2Proof.Machine.execRotl32 v n s
  | .le32 b => Sys2Proof.Machine.execLe32 b s
  | .le32enc v => Sys2Proof.Machine.execLe32enc v s
  | .qr a b c d => Sys2Proof.Machine.execQr a b c d s
  | .colround => Sys2Proof.Machine.execColround s
  | .diaground => Sys2Proof.Machine.execDiaground s
  | .dround => Sys2Proof.Machine.execDround s
  | .copy => Sys2Proof.Machine.execCopy s
  | .feedfwd => Sys2Proof.Machine.execFeedfwd s
  | .block => Sys2Proof.Machine.execBlock s
  | .ctrinc c => Sys2Proof.Machine.execCtrinc c s
  -- PSEUDO
  | .nextn n => Sys2Proof.Machine.execNextn n s

end Sys2Proof.Machine
end

