-- ==== Sys2Proof/Decode.lean ====
section
/-! DEFINITION. The decoders of spec/30_encoding.md (R46, R54, R55) and, after them, the encoder written from the same
tables. The hardware has no byte encoding of a request: a decoder reads the record's `op[1:0]` (R46) or the sequencer
index `q[6:0]` (R54), never both together (R55). -/

namespace Sys2Proof

/-- Why a code is no operation. -/
inductive DecodeError where
  /-- A sequencer index from 81 to 127: it never occurs (R20, R50). -/
  | indexOutOfRange
deriving DecidableEq, Repr

/-- R46: read `op`; 0 is NOP, 1 is INIT, 2 is NEXT, anything else is reserved. Fields a command does not list are
ignored (R47, R49, R51). -/
def decodeRequest (r : Request) : Instr :=
  if r.op = 0 then .nop
  else if r.op = 1 then .init r.key r.nonce r.ctr
  else if r.op = 2 then .next
  else .rsvd

/-- The micro-operation in slot `q[2:0]` of double round `r` (R54). -/
def microOp (r : Fin 10) : Fin 8 → Instr
  | 0 => .qrC0 r
  | 1 => .qrC1 r
  | 2 => .qrC2 r
  | 3 => .qrC3 r
  | 4 => .qrD0 r
  | 5 => .qrD1 r
  | 6 => .qrD2 r
  | 7 => .qrD3 r

/-- R54: `q = 80` (FFWD, the row with the full mask) is tested first, then `q ≤ 79` by slot `q[2:0]`, with `q[6:3]` the
double-round number. -/
def decodeIndex (q : BitVec 7) : Except DecodeError Instr :=
  if q = 80 then .ok .ffwd
  else if h : q.toNat ≤ 79 then
    .ok (microOp ⟨q.toNat / 8, by omega⟩ ⟨q.toNat % 8, by omega⟩)
  else .error .indexOutOfRange

/-- The one decoder, total on every code (R55, R59). -/
def decode : Code → Except DecodeError Instr
  | .request r => .ok (decodeRequest r)
  | .index q => decodeIndex q
  | .resetEvent => .ok .reset

/-- A request whose operand fields a command ignores (R51). -/
def bareRequest (op : BitVec 2) : Request := ⟨op, [], [], 0⟩

/-- The index of slot `slot` of double round `r` (R54: `q[6:3]` is `r`, `q[2:0]` the slot). -/
def indexOf (r : Fin 10) (slot : Fin 8) : BitVec 7 := BitVec.ofNat 7 (8 * r.val + slot.val)

/-- The code of an operation (R46, R54, R59); none for the operations R55 gives no encoding (FUNC, the step ACCEPT-NEXT)
and for the pseudo-command NEXTN, which stands for several requests (R57). -/
def encode : Instr → Option Code
  | .nop => some (.request (bareRequest 0))
  | .init key nonce ctr => some (.request ⟨1, key, nonce, ctr⟩)
  | .next => some (.request (bareRequest 2))
  | .rsvd => some (.request (bareRequest 3))
  | .qrC0 r => some (.index (indexOf r 0))
  | .qrC1 r => some (.index (indexOf r 1))
  | .qrC2 r => some (.index (indexOf r 2))
  | .qrC3 r => some (.index (indexOf r 3))
  | .qrD0 r => some (.index (indexOf r 4))
  | .qrD1 r => some (.index (indexOf r 5))
  | .qrD2 r => some (.index (indexOf r 6))
  | .qrD3 r => some (.index (indexOf r 7))
  | .ffwd => some (.index 80)
  | .reset => some .resetEvent
  | .acceptNext => none
  | .add32 _ _ | .xor32 _ _ | .rotl32 _ _ | .le32 _ | .le32enc _ => none
  | .qr _ _ _ _ | .colround | .diaground | .dround | .copy | .feedfwd | .block => none
  | .ctrinc _ | .nextn _ => none

/-- The code whose bits are `w`, numbered as the opcode table numbers them. A width of at most 2 bits is a command word
`op[1:0]`, a width of 3 to 7 bits a sequencer index `q[6:0]`. R55 says the two are different words, and a width given in
whole bytes does not tell them apart: then a value that fits `op[1:0]` is read as a command word and any other as an
index (DESIGN CHOICE, log 9). The operand fields of a command word are zeros of the lengths R48 requires: 32 key bytes,
12 nonce bytes and the counter. -/
def tableCode (nbits w : Nat) : Option Code :=
  if nbits ≤ 2 ∨ 8 ≤ nbits then
    if w < 4 then some (.request ⟨BitVec.ofNat 2 w, List.replicate 32 0, List.replicate 12 0, 0⟩)
    else if nbits ≤ 2 ∨ 128 ≤ w then none
    else some (.index (BitVec.ofNat 7 w))
  else if w < 128 then some (.index (BitVec.ofNat 7 w))
  else none

/-- The operation the decoder reads from an opcode-table word (log 9); none where it refuses. -/
def decodeTableWord (nbits w : Nat) : Option Instr :=
  match tableCode nbits w with
  | none => none
  | some c =>
    match decode c with
    | .ok i => some i
    | .error _ => none

end Sys2Proof
end

