-- ==== Sys2Proof/Machine/Fetch.lean ====
section
/-! DEFINITION. What the next step takes, and from where: the RESET input first, then the micro-operation `q` selects
while busy, then the head of the request channel while idle (spec/44_sequencer.md R120, R125, R126, R129;
spec/30_encoding.md R59). The block fetches no instructions from a memory (R20, R42). -/

namespace Sys2Proof.Machine

/-- The code the sequencer index presents to the decoder (R54). -/
def indexCode (q : SeqIndex) : Code := .index (BitVec.ofNat 7 q.val)

/-- What the block takes next: the code, and the state with it taken. None when it is idle with nothing presented (R120:
"or nothing"). RESET on its own input beats everything (R59, R145); while busy nothing is taken from the channel (R126);
a RESET written in line with the commands is taken in its turn (R58; log 4). -/
def State.take (s : State) : Option (Code × State) :=
  if s.resetLine then some (.resetEvent, { s with resetLine := false })
  else if s.busy then some (indexCode s.q, s)
  else
    match s.channel with
    | [] => none
    | .reset :: rest => some (.resetEvent, { s with channel := rest })
    | .request r :: rest => some (.request r, { s with channel := rest })

/-- The operation a taken code performs. At the micro-step level a NEXT that can run is accepted by the step ACCEPT-NEXT
(R121); every other code, and a NEXT that is refused or faults, is one step (R125). -/
def State.issue (s : State) (i : Instr) : Instr :=
  if i = .next ∧ s.level = .microStep ∧ s.acceptEnabled then .acceptNext else i

/-- The operation of the next step, or why its code is none, and the state it runs in; none when there is nothing to
take. -/
def State.fetch (s : State) : Option (Except DecodeError Instr × State) :=
  match s.take with
  | none => none
  | some (c, s') =>
    match decode c with
    | .ok i => some (.ok (s'.issue i), s')
    | .error e => some (.error e, s')

/-- The state with a code placed where the next step takes it: a request at the head of the channel of an idle block at
the transaction level, an index in `q` of a busy block, RESET on its line (log 9). An index from 81 to 127 has no place
(R20): the state is unchanged. -/
def State.place (s : State) (c : Code) : State :=
  match c with
  | .request r =>
    { s with resetLine := false, busy := false, level := .transaction, channel := .request r :: s.channel }
  | .index q =>
    if h : q.toNat < 81 then { s with resetLine := false, busy := true, q := ⟨q.toNat, h⟩ } else s
  | .resetEvent => { s with resetLine := true }

/-- The state with the code of an opcode-table word placed (log 9). -/
def State.placeTableWord (s : State) (nbits w : Nat) : State :=
  match tableCode nbits w with
  | none => s
  | some c => s.place c

end Sys2Proof.Machine
end

