-- ==== Sys2Proof/Machine/Step.lean ====
section
/-! DEFINITION. One step of the block: take what comes next and run it; an idle block with nothing presented stays as it
is (spec/44_sequencer.md R120). -/

namespace Sys2Proof.Machine

/-- One step (R120). -/
def step (s : State) : Host.Outcome State Fault Refusal :=
  match s.fetch with
  | none => .next s
  | some (.ok i, s') => exec i s'
  | some (.error _, _) => .refused .noSuchIndex

/-- The state with the operation of an opcode-table word where `step` takes its next one (log 9). -/
def State.withFetchWord (s : State) (nbits w : Nat) : State := s.placeTableWord nbits w

end Sys2Proof.Machine
end

