-- ==== Sys2Proof/Safety.lean ====
section
/-! DEFINITION. What counts as a safe run, in the terms claims use: the invariant of the block, a run without a recorded
fault, the end of a run (spec/70_reset_and_hazards.md R164), the priority of faults (spec/60_exceptions.md R145), and when
two states differ only in words that hold no value (spec/10_state.md R25). -/

namespace Sys2Proof.Machine

/-- The states a run from RESET stays in: a NEXT is in progress only on a loaded, fault-free block (R121, R126), and never
at the transaction level (R18). -/
def State.Inv (s : State) : Prop :=
  s.busy = true → s.loaded = true ∧ s.fault = .ok ∧ s.level = .microStep

/-- `k` steps of the block. -/
def runSteps : Nat → State → Host.Outcome State Fault Refusal
  | 0, s => .next s
  | k + 1, s =>
    match step s with
    | .next t => runSteps k t
    | .fault r => .fault r
    | .refused r => .refused r

/-- A run may be trusted while no fault is recorded (R147). -/
def State.Safe (s : State) : Prop := s.fault = .ok

/-- The end of a run: nothing waits and no NEXT is in progress (R164). -/
def State.Done (s : State) : Prop := s.channel = [] ∧ s.busy = false ∧ s.resetLine = false

/-- R145, first match wins: the status a command that responds is answered with. -/
def State.verdict (s : State) (i : Instr) : Status :=
  if s.fault ≠ .ok then s.fault
  else
    match i with
    | .rsvd => .illegalCommand
    | .init key nonce _ =>
      if key.length ≠ 32 then .invalidKeyLength
      else if nonce.length ≠ 12 then .invalidNonceLength
      else .ok
    | .next => if s.loaded = false then .notLoaded else .ok
    | _ => .ok

/-- Two states that differ at most in words that hold no value: `s[4]` to `s[15]` while `loaded = 0`, and `w` and `q`
while `busy = 0` (R20, R22, R25). -/
structure SameValues (s t : State) : Prop where
  loaded    : t.loaded = s.loaded
  fault     : t.fault = s.fault
  busy      : t.busy = s.busy
  level     : t.level = s.level
  resetLine : t.resetLine = s.resetLine
  channel   : t.channel = s.channel
  responses : t.responses = s.responses
  draws     : t.draws = s.draws
  result    : t.result = s.result
  words     : s.loaded = true → t.key = s.key ∧ t.ctr = s.ctr ∧ t.nonce = s.nonce
  engine    : s.busy = true → t.w = s.w ∧ t.q = s.q

/-- What a response shows apart from its data: its status, and whether it carries a block (R52). -/
def Response.shape (r : Response) : Status × Bool := (r.status, r.data.isSome)

/-- Two states that differ at most in data: the key, counter, nonce and working words, and the words of the blocks
delivered (R19: nothing the block tests depends on them). -/
structure SameControl (s t : State) : Prop where
  loaded    : t.loaded = s.loaded
  fault     : t.fault = s.fault
  busy      : t.busy = s.busy
  q         : t.q = s.q
  level     : t.level = s.level
  resetLine : t.resetLine = s.resetLine
  channel   : t.channel = s.channel
  responses : t.responses.map Response.shape = s.responses.map Response.shape
  draws     : t.draws = s.draws

/-- What an item of a program does when it is taken at the transaction level (R36, R39): RESET, or its one command. -/
def State.itemEffect (s : State) : Item → State
  | .reset => s.clear
  | .request r =>
    match decodeRequest r with
    | .nop => s
    | .init key nonce ctr => s.init key nonce ctr
    | .next => s.next
    | _ => s.reserved

end Sys2Proof.Machine
end

