-- ==== Sys2Proof/Certificates/Slice0/Obligations.lean ====
section
/-! DEFINITION. The statements for the provers. Each docstring names the rule of spec/ it formalises. -/

open Sys2Proof Sys2Proof.Machine

/-! ### The state after RESET, and the hardwired words -/

/-- R25, the rows whose value it gives: no generator, no fault, not busy, no response pending, the constants in place. -/
def Obligations.ResetStateIsEmptyBlock : Prop :=
  State.reset.loaded = false ∧ State.reset.fault = .ok ∧ State.reset.fault.code = 0 ∧ State.reset.busy = false ∧
  State.reset.responses = [] ∧ State.reset.words[0] = 0x61707865 ∧ State.reset.words[1] = 0x3320646e ∧
  State.reset.words[2] = 0x79622d32 ∧ State.reset.words[3] = 0x6b206574

/-- R11: in every state the first four words are the constants (the LE32 of "expa", "nd 3", "2-by", "te k"), and the
other twelve are the key words, the counter and the nonce words (the layout of R10). That the strings are decoded
little-endian is R11's own reading (D14). -/
def Obligations.StateWordsLayout : Prop :=
  ∀ s : State,
    s.words[0] = le32 #v[0x65, 0x78, 0x70, 0x61] ∧ s.words[0] = 0x61707865 ∧
    s.words[1] = le32 #v[0x6e, 0x64, 0x20, 0x33] ∧ s.words[1] = 0x3320646e ∧
    s.words[2] = le32 #v[0x32, 0x2d, 0x62, 0x79] ∧ s.words[2] = 0x79622d32 ∧
    s.words[3] = le32 #v[0x74, 0x65, 0x20, 0x6b] ∧ s.words[3] = 0x6b206574 ∧
    (∀ i : Fin 8, s.words[4 + i.val] = s.key[i]) ∧ s.words[12] = s.ctr ∧
    (∀ i : Fin 3, s.words[13 + i.val] = s.nonce[i])

/-- R140: the codes of the recorded faults are 0, 1, 2, 4, 5, one each. -/
def Obligations.FaultCodes : Prop :=
  Status.ok.code = 0 ∧ Status.invalidKeyLength.code = 1 ∧ Status.invalidNonceLength.code = 2 ∧
  Status.notLoaded.code = 4 ∧ Status.illegalCommand.code = 5 ∧ ∀ k l : Status, k.code = l.code → k = l

/-! ### The primitives -/

/-- R105: ADD32 is addition modulo 2^32; nothing else of the state changes. -/
def Obligations.Add32IsModular : Prop :=
  ∀ (x y : Word) (s : State), ∃ v : Word,
    exec (.add32 x y) s = .next { s with result := .word v } ∧ v.toNat = (x.toNat + y.toNat) % 2 ^ 32

/-- R106: bit i of XOR32 is 1 exactly when the operands differ in bit i; nothing else changes. -/
def Obligations.Xor32IsBitwise : Prop :=
  ∀ (x y : Word) (s : State), ∃ v : Word,
    exec (.xor32 x y) s = .next { s with result := .word v } ∧
    ∀ i : Fin 32, v[i] = true ↔ x[i] ≠ y[i]

/-- R107: ROTL32 moves bit i to bit (i + n) mod 32; for 0 < n it is (v·2^n mod 2^32) + v div 2^(32-n); nothing else
changes. R108: amount 0 is the identity, the spec's own choice there (D15). -/
def Obligations.Rotl32MovesBits : Prop :=
  ∀ (v : Word) (n : Fin 32) (s : State), ∃ u : Word,
    exec (.rotl32 v n) s = .next { s with result := .word u } ∧
    (∀ i : Fin 32, u.getLsbD ((i.val + n.val) % 32) = v.getLsbD i.val) ∧
    (0 < n.val → u.toNat = v.toNat * 2 ^ n.val % 2 ^ 32 + v.toNat / 2 ^ (32 - n.val)) ∧
    (n.val = 0 → u = v)

/-- R70: LE32 of four bytes is b[0] + 2^8·b[1] + 2^16·b[2] + 2^24·b[3]; nothing else changes. -/
def Obligations.Le32DecodesLittleEndian : Prop :=
  ∀ (b0 b1 b2 b3 : Byte) (s : State), ∃ v : Word,
    exec (.le32 [b0, b1, b2, b3]) s = .next { s with result := .word v } ∧
    v.toNat = b0.toNat + 2 ^ 8 * b1.toNat + 2 ^ 16 * b2.toNat + 2 ^ 24 * b3.toNat

/-- R71: LE32 fails on every length other than 4. That the failure is a fault of the model with the length in it is
log 8. -/
def Obligations.Le32FailsOnOtherLengths : Prop :=
  ∀ (b : List Byte) (s : State), b.length ≠ 4 → exec (.le32 b) s = .fault (.invalidWordLength b.length)

/-- R109, derived there from R70: LE32ENC yields the four bytes of a word, least significant first, and nothing else
changes; it is the inverse of LE32, both ways round. -/
def Obligations.Le32encIsInverseOfLe32 : Prop :=
  (∀ (v : Word) (s : State),
    exec (.le32enc v) s =
      .next { s with
        result := .bytes [v.extractLsb' 0 8, v.extractLsb' 8 8, v.extractLsb' 16 8, v.extractLsb' 24 8] }) ∧
  (∀ v : Word, le32 (le32enc v) = v) ∧ ∀ b : Vector Byte 4, le32enc (le32 b) = b

/-- R84: CTRINC adds one modulo 2^32, at every value; nothing else changes. -/
def Obligations.CtrincAddsOne : Prop :=
  ∀ (c : Word) (s : State), ∃ v : Word,
    exec (.ctrinc c) s = .next { s with result := .word v } ∧ v.toNat = (c.toNat + 1) % 2 ^ 32

/-! ### The block transform -/

/-- R93: QR on four distinct positions: eight assignments in order, on the working buffer; its other twelve words and
the rest of the state are unchanged. -/
def Obligations.QuarterRoundValues : Prop :=
  ∀ (a b c d : Fin 16) (s : State), distinctPositions a b c d = true →
    let a₁ := s.w[a] + s.w[b]
    let d₁ := (s.w[d] ^^^ a₁).rotateLeft 16
    let c₁ := s.w[c] + d₁
    let b₁ := (s.w[b] ^^^ c₁).rotateLeft 12
    let a₂ := a₁ + b₁
    let d₂ := (d₁ ^^^ a₂).rotateLeft 8
    let c₂ := c₁ + d₂
    let b₂ := (b₁ ^^^ c₂).rotateLeft 7
    ∃ w' : Block, exec (.qr a b c d) s = .next { s with w := w' } ∧
      w'[a] = a₂ ∧ w'[b] = b₂ ∧ w'[c] = c₂ ∧ w'[d] = d₂ ∧
      ∀ i : Fin 16, i ≠ a → i ≠ b → i ≠ c → i ≠ d → w'[i] = s.w[i]

/-- Log 14 (DESIGN CHOICE; R93 gives QR no meaning there): on positions that are not four distinct ones QR is refused. -/
def Obligations.QrRefusesEqualPositions : Prop :=
  ∀ (a b c d : Fin 16) (s : State), distinctPositions a b c d = false →
    exec (.qr a b c d) s = .refused .positionsNotDistinct

/-- R95: the eight tuples, in the closed form the rule derives from its table; the four positions of a tuple are
distinct. -/
def Obligations.TupleTable : Prop :=
  (∀ k : Fin 4,
    let t := tuple ⟨k.val, by omega⟩
    t.1.val = k.val ∧ t.2.1.val = 4 + k.val ∧ t.2.2.1.val = 8 + k.val ∧ t.2.2.2.val = 12 + k.val) ∧
  (∀ j : Fin 4,
    let t := tuple ⟨4 + j.val, by omega⟩
    t.1.val = j.val ∧ t.2.1.val = 4 + (j.val + 1) % 4 ∧ t.2.2.1.val = 8 + (j.val + 2) % 4 ∧
    t.2.2.2.val = 12 + (j.val + 3) % 4) ∧
  ∀ k : Fin 8, distinctPositions (tuple k).1 (tuple k).2.1 (tuple k).2.2.1 (tuple k).2.2.2 = true

/-- R96, R97, R92: COLROUND and DIAGROUND are their four quarter rounds, and DROUND is the column round and then the
diagonal round, on the working buffer; nothing else changes. -/
def Obligations.RoundsAreQuarterRounds : Prop :=
  ∀ s : State,
    let col := fun w =>
      quarterRound (quarterRound (quarterRound (quarterRound w 0 4 8 12) 1 5 9 13) 2 6 10 14) 3 7 11 15
    let diag := fun w =>
      quarterRound (quarterRound (quarterRound (quarterRound w 0 5 10 15) 1 6 11 12) 2 7 8 13) 3 4 9 14
    exec .colround s = .next { s with w := col s.w } ∧
    exec .diaground s = .next { s with w := diag s.w } ∧
    exec .dround s = .next { s with w := diag (col s.w) }

/-- R96, R97, derived there from R93 and R95: the order among the four quarter rounds of a column round, and of a
diagonal round, does not change the result. -/
def Obligations.OrderInsideARoundIsFree : Prop :=
  ∀ (w : Block) (p : List (Fin 8)),
    (p.Perm [0, 1, 2, 3] → p.foldl slotRound w = columnRound w) ∧
    (p.Perm [4, 5, 6, 7] → p.foldl slotRound w = diagonalRound w)

/-- R91: COPY copies all sixteen words; nothing else changes. -/
def Obligations.CopyCopiesState : Prop :=
  ∀ s : State, ∃ w' : Block, exec .copy s = .next { s with w := w' } ∧ ∀ i : Fin 16, w'[i] = s.words[i]

/-- R98: FEEDFWD adds the state to the working buffer word by word modulo 2^32; `w` and `s` are not changed. -/
def Obligations.FeedForwardAddsState : Prop :=
  ∀ s : State, ∃ out : Block, exec .feedfwd s = .next { s with result := .block out } ∧
    ∀ i : Fin 16, out[i].toNat = (s.w[i].toNat + s.words[i].toNat) % 2 ^ 32

/-- R90, R99: BLOCK copies the state into the working buffer, runs ten double rounds on it and returns the post-round
words plus the state; `s` is not written. -/
def Obligations.BlockTransformsState : Prop :=
  ∀ s : State, ∃ w' out : Block,
    exec .block s = .next { s with w := w', result := .block out } ∧
    w' = doubleRound^[10] s.words ∧ ∀ i : Fin 16, out[i] = w'[i] + s.words[i]

/-- R92, R122: the ten double rounds are the 80 quarter rounds of the slots 0 to 7, ten times over. -/
def Obligations.MixingIsEightyQuarterRounds : Prop :=
  ∀ w : Block,
    mixed w = (List.range 80).foldl (fun w q => slotRound w ⟨q % 8, Nat.mod_lt q (by decide)⟩) w

/-! ### The commands at the transaction level -/

/-- R86: NOP changes nothing and gets no response, whatever is recorded. -/
def Obligations.NopDoesNothing : Prop := ∀ s : State, exec .nop s = .next s

/-- R31, R32, R67: INIT with a 32-byte key and a 12-byte nonce and no fault recorded loads key, counter and nonce and
responds OK with no data; nothing else changes. -/
def Obligations.InitLoadsGenerator : Prop :=
  ∀ (s : State) (key nonce : List Byte) (ctr : Word), s.fault = .ok →
    ∀ (hk : key.length = 32) (hn : nonce.length = 12), ∃ (k : Vector Word 8) (n : Vector Word 3),
      exec (.init key nonce ctr) s =
        .next { s with key := k, ctr := ctr, nonce := n, loaded := true,
                       responses := s.responses ++ [⟨.ok, none⟩] } ∧
      (∀ i : Fin 8, k[i].toNat =
        key[4 * i.val].toNat + 256 * key[4 * i.val + 1].toNat + 65536 * key[4 * i.val + 2].toNat +
          16777216 * key[4 * i.val + 3].toNat) ∧
      (∀ i : Fin 3, n[i].toNat =
        nonce[4 * i.val].toNat + 256 * nonce[4 * i.val + 1].toNat + 65536 * nonce[4 * i.val + 2].toNat +
          16777216 * nonce[4 * i.val + 3].toNat)

/-- R66, R141: INIT with a wrong length records the fault and responds with it; no other state is written. That
the key is checked first is the spec's own choice (D8, R145). -/
def Obligations.InitRefusesWrongLengths : Prop :=
  ∀ (s : State) (key nonce : List Byte) (ctr : Word), s.fault = .ok →
    (key.length ≠ 32 → exec (.init key nonce ctr) s =
      .next { s with fault := .invalidKeyLength, responses := s.responses ++ [⟨.invalidKeyLength, none⟩] }) ∧
    (key.length = 32 → nonce.length ≠ 12 → exec (.init key nonce ctr) s =
      .next { s with fault := .invalidNonceLength, responses := s.responses ++ [⟨.invalidNonceLength, none⟩] })

/-- R69: the words after a successful INIT depend on its operands only. -/
def Obligations.InitForgetsOldGenerator : Prop :=
  ∀ (s t s' t' : State) (key nonce : List Byte) (ctr : Word), s.fault = .ok → t.fault = .ok →
    key.length = 32 → nonce.length = 12 →
    exec (.init key nonce ctr) s = .next s' → exec (.init key nonce ctr) t = .next t' →
    s'.words = t'.words ∧ s'.loaded = true ∧ t'.loaded = true ∧ s'.fault = .ok ∧ t'.fault = .ok

/-- R81, R87: NEXT on a loaded, fault-free block returns the block of the state as it stood, then adds one to the
counter modulo 2^32; everything else but the scratch buffer is unchanged. -/
def Obligations.NextReturnsBlock : Prop :=
  ∀ s : State, s.fault = .ok → s.loaded = true → ∃ w' out : Block,
    exec .next s =
      .next { s with w := w', ctr := s.ctr + 1, responses := s.responses ++ [⟨.ok, some out⟩] } ∧
    w' = doubleRound^[10] s.words ∧ ∀ i : Fin 16, out[i] = w'[i] + s.words[i]

/-- R85: at 0xffffffff NEXT wraps the counter to 0 with no fault and no carry into the nonce. -/
def Obligations.CounterWrapsSilently : Prop :=
  ∀ s : State, s.fault = .ok → s.loaded = true → s.ctr = 0xffffffff →
    ∃ t : State, exec .next s = .next t ∧ t.ctr = 0 ∧ t.fault = .ok ∧ t.nonce = s.nonce ∧ t.key = s.key ∧
      ∃ r : Response, t.responses = s.responses ++ [r] ∧ r.status = .ok

/-- R143: NEXT with no fault recorded and nothing loaded records NotLoaded and responds with it, and nothing else. -/
def Obligations.NextBeforeInitFaults : Prop :=
  ∀ s : State, s.fault = .ok → s.loaded = false →
    exec .next s = .next { s with fault := .notLoaded, responses := s.responses ++ [⟨.notLoaded, none⟩] }

/-- R144: the reserved code with no fault recorded records IllegalCommand, whatever `loaded` is, and nothing else. -/
def Obligations.ReservedCodeFaults : Prop :=
  ∀ s : State, s.fault = .ok →
    exec .rsvd s =
      .next { s with fault := .illegalCommand, responses := s.responses ++ [⟨.illegalCommand, none⟩] }

/-- R147: while a fault is recorded INIT, NEXT and the reserved code answer with it and change nothing else. -/
def Obligations.RecordedFaultBlocksCommands : Prop :=
  ∀ (s : State) (key nonce : List Byte) (ctr : Word), s.fault ≠ .ok →
    let t := { s with responses := s.responses ++ [⟨s.fault, none⟩] }
    exec (.init key nonce ctr) s = .next t ∧ exec .next s = .next t ∧ exec .rsvd s = .next t ∧
    exec .nop s = .next s

/-- R145, whose order is the spec's own choice (D8), R146, R147: INIT, NEXT and the reserved code give exactly one
response, with the status the priority order picks, which is also the `fault` field afterwards (R52); with a status
other than 0 it has no data and nothing else changes. -/
def Obligations.OnePriorityOneResponse : Prop :=
  ∀ (s : State) (i : Instr), (i = .next ∨ i = .rsvd ∨ ∃ key nonce ctr, i = .init key nonce ctr) →
    ∃ (t : State) (data : Option Block), exec i s = .next t ∧ t.fault = s.verdict i ∧
      t.responses = s.responses ++ [⟨s.verdict i, data⟩] ∧
      (s.verdict i ≠ .ok →
        data = none ∧ t = { s with fault := s.verdict i, responses := s.responses ++ [⟨s.verdict i, none⟩] })

/-- R57, and R83 (derived there): on a loaded, fault-free block NEXTN n yields the blocks for counter values c to c +
n - 1 in that order, modulo 2^32, and leaves the counter at c + n; everything else but the scratch buffer is
unchanged. -/
def Obligations.NextnYieldsSuccessiveBlocks : Prop :=
  ∀ (s : State) (n : Nat), s.fault = .ok → s.loaded = true → ∃ w' : Block,
    exec (.nextn n) s =
      .next { s with
        w := w', ctr := s.ctr + BitVec.ofNat 32 n,
        responses := s.responses ++ (List.range n).map fun i =>
          ⟨.ok, some (blockTransform (wordsOf s.key (s.ctr + BitVec.ofNat 32 i) s.nonce))⟩ }

/-- R57: in every state NEXTN n yields n responses, and NEXTN (n + 1) is NEXTN n and then one NEXT. -/
def Obligations.NextnIsRepeatedNext : Prop :=
  ∀ (s : State) (n : Nat), exec (.nextn 0) s = .next s ∧
    ∃ t u : State, exec (.nextn n) s = .next t ∧ t.responses.length = s.responses.length + n ∧
      exec .next t = .next u ∧ exec (.nextn (n + 1)) s = .next u

/-- R154, derived there from R83: an instance whose counter starts k above another's, with the same key and nonce,
returns with its NEXT number j + 1 the block the other returns with its NEXT number k + j + 1. -/
def Obligations.InstancesShareKeystream : Prop :=
  ∀ (a b : State) (k j : Nat), a.fault = .ok → b.fault = .ok → a.loaded = true → b.loaded = true →
    b.key = a.key → b.nonce = a.nonce → b.ctr = a.ctr + BitVec.ofNat 32 k →
    ∃ (t u : State) (out : Block), exec (.nextn (j + 1)) b = .next t ∧ exec (.nextn (k + j + 1)) a = .next u ∧
      t.responses.getLast? = some ⟨.ok, some out⟩ ∧ u.responses.getLast? = some ⟨.ok, some out⟩

/-! ### The micro-steps -/

/-- R121: ACCEPT-NEXT, where it is enabled, copies the state into the buffer, clears `q`, sets `busy`, and gives no
response yet; nothing else changes. -/
def Obligations.AcceptNextStarts : Prop :=
  ∀ s : State, s.busy = false → s.fault = .ok → s.loaded = true →
    exec .acceptNext s = .next { s with w := s.words, q := 0, busy := true }

/-- R122: each QR-STEP, where `q` selects it, applies its tuple's quarter round and adds one to `q`; nothing else
changes. -/
def Obligations.QrStepsAdvance : Prop :=
  ∀ (s : State) (r : Fin 10), s.busy = true → ∀ q' : SeqIndex, q'.val = s.q.val + 1 →
    (s.q.val = 8 * r.val → exec (.qrC0 r) s = .next { s with w := quarterRound s.w 0 4 8 12, q := q' }) ∧
    (s.q.val = 8 * r.val + 1 → exec (.qrC1 r) s = .next { s with w := quarterRound s.w 1 5 9 13, q := q' }) ∧
    (s.q.val = 8 * r.val + 2 → exec (.qrC2 r) s = .next { s with w := quarterRound s.w 2 6 10 14, q := q' }) ∧
    (s.q.val = 8 * r.val + 3 → exec (.qrC3 r) s = .next { s with w := quarterRound s.w 3 7 11 15, q := q' }) ∧
    (s.q.val = 8 * r.val + 4 → exec (.qrD0 r) s = .next { s with w := quarterRound s.w 0 5 10 15, q := q' }) ∧
    (s.q.val = 8 * r.val + 5 → exec (.qrD1 r) s = .next { s with w := quarterRound s.w 1 6 11 12, q := q' }) ∧
    (s.q.val = 8 * r.val + 6 → exec (.qrD2 r) s = .next { s with w := quarterRound s.w 2 7 8 13, q := q' }) ∧
    (s.q.val = 8 * r.val + 7 → exec (.qrD3 r) s = .next { s with w := quarterRound s.w 3 4 9 14, q := q' })

/-- R124: FFWD at `q = 80` delivers working buffer plus state, with the counter as it was, adds one to the counter and
clears `busy`, with status 0; nothing else changes. -/
def Obligations.FfwdDelivers : Prop :=
  ∀ s : State, s.busy = true → s.q.val = 80 → ∃ out : Block,
    exec .ffwd s =
      .next { s with ctr := s.ctr + 1, busy := false, responses := s.responses ++ [⟨.ok, some out⟩] } ∧
    ∀ i : Fin 16, out[i] = s.w[i] + s.words[i]

/-- Log 7 (DESIGN CHOICE; R121, R122, R124 give a micro-step no effect where it is not enabled): there it is refused
by name. A QR-STEP is not enabled while idle, nor at an index that is not its own, 80 among them. -/
def Obligations.MicroStepsRefusedWhenNotEnabled : Prop :=
  ∀ s : State,
    ((s.busy = true ∨ s.fault ≠ .ok ∨ s.loaded = false) →
      exec .acceptNext s = .refused (.notEnabled "ACCEPT-NEXT")) ∧
    ((s.busy = false ∨ s.q.val ≠ 80) → exec .ffwd s = .refused (.notEnabled "FFWD")) ∧
    ∀ r : Fin 10,
      ((s.busy = false ∨ s.q.val ≠ 8 * r.val) → exec (.qrC0 r) s = .refused (.notEnabled "QR_C0")) ∧
      ((s.busy = false ∨ s.q.val ≠ 8 * r.val + 1) → exec (.qrC1 r) s = .refused (.notEnabled "QR_C1")) ∧
      ((s.busy = false ∨ s.q.val ≠ 8 * r.val + 2) → exec (.qrC2 r) s = .refused (.notEnabled "QR_C2")) ∧
      ((s.busy = false ∨ s.q.val ≠ 8 * r.val + 3) → exec (.qrC3 r) s = .refused (.notEnabled "QR_C3")) ∧
      ((s.busy = false ∨ s.q.val ≠ 8 * r.val + 4) → exec (.qrD0 r) s = .refused (.notEnabled "QR_D0")) ∧
      ((s.busy = false ∨ s.q.val ≠ 8 * r.val + 5) → exec (.qrD1 r) s = .refused (.notEnabled "QR_D1")) ∧
      ((s.busy = false ∨ s.q.val ≠ 8 * r.val + 6) → exec (.qrD2 r) s = .refused (.notEnabled "QR_D2")) ∧
      ((s.busy = false ∨ s.q.val ≠ 8 * r.val + 7) → exec (.qrD3 r) s = .refused (.notEnabled "QR_D3"))

/-- R127 (derived there), R128; that the state says which granularity runs is log 3: from an idle, loaded, fault-free
block with a NEXT at the head of the channel, exactly 82 micro-steps end in the state the transaction-level NEXT
gives, `q` apart, which has no meaning then (R20). -/
def Obligations.EightyTwoMicroStepsAreOneNext : Prop :=
  ∀ (s : State) (r : Request) (rest : List Item), s.busy = false → s.fault = .ok → s.loaded = true →
    s.resetLine = false → s.level = .microStep → s.channel = .request r :: rest → r.op = 2 →
    ∃ t u : State, exec .next { s with channel := rest } = .next t ∧
      runSteps 82 s = .next u ∧ u = { t with q := u.q } ∧ u.busy = false

/-- R82, R126, R174 (a NEXT ends after a fixed, bounded amount of work): a NEXT in progress that no RESET meets delivers
its response after exactly 81 - q more steps, and not before; it then is no longer busy and the counter is one higher.
The number 81 - q is that of one quarter round per step (R122, R124, R128), the granularity the model chooses for its
micro-steps (log 3, DESIGN CHOICE). -/
def Obligations.NextInProgressCompletes : Prop :=
  ∀ s : State, s.busy = true → s.resetLine = false → ∃ (t : State) (out : Block),
    runSteps (81 - s.q.val) s = .next t ∧ t.busy = false ∧ t.ctr = s.ctr + 1 ∧
    t.responses = s.responses ++ [⟨.ok, some out⟩] ∧ t.channel = s.channel ∧
    ∀ k < 81 - s.q.val, ∃ u : State, runSteps k s = .next u ∧ u.busy = true ∧
      u.responses = s.responses

/-! ### RESET -/

/-- R160, R148: RESET clears `loaded`, `fault` and `busy`, makes no response, and leaves the delivered responses, the
requests not yet taken and the granularity alone. What the words with no value and `q` hold afterwards is left open. -/
def Obligations.ResetEmptiesBlock : Prop :=
  ∀ s : State, ∃ t : State, exec .reset s = .next t ∧ t.loaded = false ∧ t.fault = .ok ∧ t.busy = false ∧
    t.responses = s.responses ∧ t.channel = s.channel ∧ t.resetLine = s.resetLine ∧ t.level = s.level ∧
    t.result = s.result

/-- R162: after RESET nothing of the old key, counter, nonce, working buffer or index is left: states that differ in
these only become the same state. That what is there instead is a free value of a fresh draw is log 1 and log 2. -/
def Obligations.ResetForgets : Prop :=
  ∀ (s : State) (key : Vector Word 8) (ctr : Word) (nonce : Vector Word 3) (w : Block) (q : SeqIndex)
    (loaded busy : Bool) (fault : Status),
    exec .reset { s with
      key := key, ctr := ctr, nonce := nonce, w := w, q := q, loaded := loaded, busy := busy, fault := fault } =
      exec .reset s

/-- R59, R129; that the input and the waiting requests are fields of the state is log 4: RESET on its input is taken
at once, in every state, before any micro-step and any request; a NEXT in progress gets no response and does not move
the counter any more; waiting requests stay. -/
def Obligations.ResetLineBeatsEverything : Prop :=
  ∀ s : State, s.resetLine = true →
    step s = exec .reset { s with resetLine := false } ∧
    ∃ t : State, step s = .next t ∧ t.busy = false ∧ t.loaded = false ∧ t.fault = .ok ∧
      t.resetLine = false ∧ t.responses = s.responses ∧ t.channel = s.channel

/-! ### Decoding, and what a step runs -/

/-- R46, R54: words written out from the spec's tables decode to the operations they stand for. -/
def Obligations.SpecWordsDecode : Prop :=
  decodeRequest ⟨0b00, [1], [], 7⟩ = .nop ∧ decodeRequest ⟨0b01, [1], [2, 3], 7⟩ = .init [1] [2, 3] 7 ∧
  decodeRequest ⟨0b10, [1], [], 7⟩ = .next ∧ decodeRequest ⟨0b11, [], [], 0⟩ = .rsvd ∧
  decodeIndex 0b0000000 = .ok (.qrC0 0) ∧ decodeIndex 0b0011001 = .ok (.qrC1 3) ∧
  decodeIndex 0b1001111 = .ok (.qrD3 9) ∧ decodeIndex 0b1010000 = .ok .ffwd ∧
  decodeIndex 0b1010001 = .error .indexOutOfRange ∧ decode .resetEvent = .ok .reset

/-- R54, R20: an index up to 79 decodes to the micro-operation of slot `q[2:0]` of double round `q[6:3]`, 80 to FFWD,
and 81 to 127 to nothing. -/
def Obligations.IndexDecodesByBits : Prop :=
  ∀ q : BitVec 7,
    (∀ (r : Fin 10) (slot : Fin 8), q.extractLsb 6 3 = BitVec.ofNat 4 r.val →
      q.extractLsb 2 0 = BitVec.ofNat 3 slot.val →
        decodeIndex q = .ok (match slot with
          | 0 => .qrC0 r | 1 => .qrC1 r | 2 => .qrC2 r | 3 => .qrC3 r
          | 4 => .qrD0 r | 5 => .qrD1 r | 6 => .qrD2 r | 7 => .qrD3 r)) ∧
    (q.toNat = 80 → decodeIndex q = .ok .ffwd) ∧
    (80 < q.toNat → decodeIndex q = .error .indexOutOfRange)

/-- Decode and encode agree: every well-formed operation that has a code is what its code decodes to, with every
operand at every value (R46, R54, R59). -/
def Obligations.DecodeOfEncode : Prop :=
  ∀ (i : Instr) (c : Code), i.wellFormed = true → encode i = some c → decode c = .ok i

/-- The other direction: an index that decodes is the code of what it decodes to, and a request is, up to the fields
its command ignores, the code of what it decodes to (R46, R51, R54). -/
def Obligations.EncodeOfDecode : Prop :=
  (∀ (q : BitVec 7) (i : Instr), decodeIndex q = .ok i → encode i = some (.index q)) ∧
  ∀ r : Request, ∃ r' : Request, encode (decodeRequest r) = some (.request r') ∧ r'.op = r.op ∧
    (r.op = 1 → r' = r)

/-- R51, R47, R49: a step that takes a request with `op` other than INIT's does not depend on the operand fields. -/
def Obligations.IgnoredFieldsAreIgnored : Prop :=
  ∀ (op : BitVec 2) (k k' n n' : List Byte) (c c' : Word) (s : State) (rest : List Item), op ≠ 1 →
    s.busy = false → s.resetLine = false →
    step { s with channel := .request ⟨op, k, n, c⟩ :: rest } =
      step { s with channel := .request ⟨op, k', n', c'⟩ :: rest }

/-- A step runs the decoded operation. While busy it is the one `q` selects, in the state as it is (R120, R122, R124).
While idle it is the one the head request decodes to, with that request taken (R125), but that a NEXT which can run is
accepted at the micro-step level (R121); a RESET in line is taken in its turn (R58); with nothing presented nothing
changes (R120). The granularity in the state is log 3, the RESET in line log 4. -/
def Obligations.StepRunsDecodedOperation : Prop :=
  ∀ s : State, s.resetLine = false →
    (s.busy = true → ∀ i : Instr, decodeIndex (BitVec.ofNat 7 s.q.val) = .ok i → step s = exec i s) ∧
    (s.busy = false →
      (s.channel = [] → step s = .next s) ∧
      (∀ rest, s.channel = .reset :: rest → step s = exec .reset { s with channel := rest }) ∧
      ∀ (r : Request) (rest : List Item), s.channel = .request r :: rest →
        step s =
          if r.op = 2 ∧ s.level = .microStep ∧ s.fault = .ok ∧ s.loaded = true then
            exec .acceptNext { s with channel := rest }
          else exec (decodeRequest r) { s with channel := rest })

/-! ### Rules about the whole machine -/

/-- The invariant holds right after RESET. -/
def Obligations.InvHoldsAtReset : Prop := State.reset.Inv

/-- R18, R121, R126: from every state that meets it, a step keeps the invariant: a NEXT is in progress only on a
loaded, fault-free block at the micro-step level. -/
def Obligations.StepKeepsInv : Prop :=
  ∀ s t : State, s.Inv → step s = .next t → t.Inv

/-- R82: the machine never stops: every state has a next one. -/
def Obligations.EveryStateSteps : Prop := ∀ s : State, ∃ t : State, step s = .next t

/-- R126: while a NEXT is in progress no request is taken, whatever waits. -/
def Obligations.RequestsHeldWhileBusy : Prop :=
  ∀ s t : State, s.busy = true → step s = .next t → t.channel = s.channel

/-- R52: a step delivers at most one response; its status is the `fault` field after the step, and only a response
with status 0 carries data. -/
def Obligations.ResponseStatusIsFaultField : Prop :=
  ∀ s t : State, s.Inv → step s = .next t →
    t.responses = s.responses ∨
      ∃ r : Response, t.responses = s.responses ++ [r] ∧ r.status = t.fault ∧ (r.data ≠ none → r.status = .ok)

/-- R12, R14, R13, R170: a step changes key or nonce words only by a successful INIT or by a RESET that it takes, from
its input or in line (log 4), and the counter only so or by adding one while delivering a block. -/
def Obligations.WordsChangeOnlyByTheRules : Prop :=
  ∀ s t : State, step s = .next t →
    (t.key = s.key ∧ t.nonce = s.nonce ∧ t.ctr = s.ctr) ∨
    (t.key = s.key ∧ t.nonce = s.nonce ∧ t.ctr = s.ctr + 1 ∧ t.fault = s.fault ∧
      ∃ out : Block, t.responses = s.responses ++ [⟨.ok, some out⟩]) ∨
    ((s.resetLine = true ∨ (s.busy = false ∧ ∃ rest, s.channel = .reset :: rest)) ∧
      t.loaded = false ∧ t.fault = .ok ∧ t.responses = s.responses) ∨
    ∃ (r : Request) (rest : List Item), s.channel = .request r :: rest ∧ r.op = 1 ∧ r.key.length = 32 ∧
      r.nonce.length = 12 ∧ s.fault = .ok ∧ s.busy = false ∧ t.loaded = true ∧ t.ctr = r.ctr ∧
      exec (.init r.key r.nonce r.ctr) { s with channel := rest } = .next t ∧
      t.responses = s.responses ++ [⟨.ok, none⟩]

/-- R147, R148: a recorded fault is never overwritten and only RESET clears it: after a step it is still there, or a
RESET was taken and the block is empty. -/
def Obligations.FaultIsStickyUntilReset : Prop :=
  ∀ s t : State, s.fault ≠ .ok → step s = .next t →
    t.fault = s.fault ∨
      ((s.resetLine = true ∨ ∃ rest, s.channel = .reset :: rest) ∧ t.fault = .ok ∧ t.loaded = false)

/-- R25 (derived there), R20, R22; the words are free values by log 1: no step reads a word that holds no value: two
states that differ in such words only step to states that differ in such words only, and in particular to the same
responses. -/
def Obligations.NoValueWordsAreNeverRead : Prop :=
  ∀ s t s' t' : State, s.Inv → SameValues s t → step s = .next s' → step t = .next t' → SameValues s' t'

/-- R19, R100, R172: control does not depend on data: two states that differ only in key, counter, nonce and working
words and in the words of delivered blocks step to states that again do. -/
def Obligations.ControlIsDataIndependent : Prop :=
  ∀ s t s' t' : State, SameControl s t → step s = .next s' → step t = .next t' → SameControl s' t'

/-- R36, R39, R164; a RESET in line is taken in its turn by log 4: at the transaction level a run takes one step per
item, in the order the host issued them, and ends with everything taken and the effects in that order. -/
def Obligations.TransactionRunIsInOrder : Prop :=
  ∀ (s : State) (items : List Item), s.level = .transaction → s.busy = false → s.resetLine = false →
    ∃ t : State, runSteps items.length { s with channel := items } = .next t ∧
      t = items.foldl State.itemEffect { s with channel := [] } ∧ t.Done

/-- R127 for whole programs (the list of items is log 4, the granularity log 3): the micro-step level ends every
program with the same words, status and responses as the transaction level, `q` apart. -/
def Obligations.MicroStepLevelRefinesTransactions : Prop :=
  ∀ (s : State) (items : List Item), s.level = .microStep → s.busy = false → s.resetLine = false →
    ∃ (k : Nat) (t : State), runSteps k { s with channel := items } = .next t ∧
      { t with q := s.q } = { items.foldl State.itemEffect { s with channel := [] } with q := s.q } ∧ t.Done

/-! ### Views of operands and results -/

/-- R33: byte n of the 64-byte view of an output block is bits 8·(n mod 4)+7 down to 8·(n mod 4) of word n div 4. -/
def Obligations.KeystreamByteView : Prop :=
  ∀ (out : Block) (n : Fin 64) (j : Fin 8),
    (keystreamByte out n).getLsbD j.val =
      (out[n.val / 4]'(by omega)).getLsbD (8 * (n.val % 4) + j.val)

/-- R44: on fixed-width buses INIT loads `s[4+i]` from key bus bits 32i+31 to 32i and `s[13+i]` from the nonce bus the
same way, no length fault can occur (derived there from R34), and keystream byte n is bits 8n+7 to 8n of the output
bus. -/
def Obligations.PinLayout : Prop :=
  (∀ (op : BitVec 2) (kb : BitVec 256) (nb : BitVec 96) (cb : Word) (s : State), s.fault = .ok →
    let r := requestOfPins op kb nb cb
    r.ctr = cb ∧ ∃ t : State, exec (.init r.key r.nonce r.ctr) s = .next t ∧ t.fault = .ok ∧ t.ctr = cb ∧
      (∀ i : Fin 8, t.words[4 + i.val] = kb.extractLsb' (32 * i.val) 32) ∧
      ∀ i : Fin 3, t.words[13 + i.val] = nb.extractLsb' (32 * i.val) 32) ∧
  ∀ out : Block, (∀ i : Fin 16, (outBus out).extractLsb' (32 * i.val) 32 = out[i]) ∧
    ∀ n : Fin 64, keystreamByte out n = (outBus out).extractLsb' (8 * n.val) 8
end

