-- ==== Sys2Proof/Laws/Decode.lean ====
section
/-! SUPPORT. What the decoders answer, said once per form of code. -/

namespace Sys2Proof

theorem decodeIndex_ffwd : decodeIndex 80 = .ok .ffwd := rfl

/-- An index up to 79, by its double round and slot (R54). -/
theorem decodeIndex_indexOf (r : Fin 10) (slot : Fin 8) : decodeIndex (indexOf r slot) = .ok (microOp r slot) := by
  revert r slot; decide

theorem decodeIndex_of_le {q : BitVec 7} (h : q.toNat ≤ 79) :
    decodeIndex q = .ok (microOp ⟨q.toNat / 8, by omega⟩ ⟨q.toNat % 8, by omega⟩) := by
  have hne : q ≠ 80 := by rintro rfl; simp at h
  rw [decodeIndex, if_neg hne, dif_pos h]

theorem decodeIndex_of_gt {q : BitVec 7} (h : 80 < q.toNat) : decodeIndex q = .error .indexOutOfRange := by
  have hne : q ≠ 80 := by rintro rfl; simp at h
  have hle : ¬ q.toNat ≤ 79 := by omega
  rw [decodeIndex, if_neg hne, dif_neg hle]

/-- Every value of the sequencer index decodes (R20, R54). -/
theorem decodeIndex_seqIndex (q : SeqIndex) :
    (q.val = 80 ∧ decodeIndex (BitVec.ofNat 7 q.val) = .ok .ffwd) ∨
    ∃ (r : Fin 10) (slot : Fin 8), q.val = 8 * r.val + slot.val ∧
      decodeIndex (BitVec.ofNat 7 q.val) = .ok (microOp r slot) := by
  by_cases h : q.val = 80
  · exact .inl ⟨h, by rw [h]; rfl⟩
  · have hq := q.isLt
    refine .inr ⟨⟨q.val / 8, by omega⟩, ⟨q.val % 8, by omega⟩, by simp only []; omega, ?_⟩
    have e : (BitVec.ofNat 7 q.val).toNat = q.val := by simp; omega
    rw [decodeIndex_of_le (by omega)]
    simp only [e]

/-- What a request decodes to, by its code (R46). -/
theorem decodeRequest_cases (r : Request) :
    (r.op = 0 ∧ decodeRequest r = .nop) ∨ (r.op = 1 ∧ decodeRequest r = .init r.key r.nonce r.ctr) ∨
    (r.op = 2 ∧ decodeRequest r = .next) ∨ (r.op = 3 ∧ decodeRequest r = .rsvd) := by
  obtain ⟨op, key, nonce, ctr⟩ := r
  revert op
  simp only [decodeRequest]
  intro op
  have := (by decide : ∀ op : BitVec 2, op = 0 ∨ op = 1 ∨ op = 2 ∨ op = 3) op
  rcases this with rfl | rfl | rfl | rfl <;> simp

end Sys2Proof
end

