-- ==== Sys2Proof/Machine/Program.lean ====
section
/-! DEFINITION. Programs and their text (spec/30_encoding.md R56, R57, R58; spec/70_reset_and_hazards.md R164, R168): the
lines a host writes, the items they stand for, what a host does to the block, and how a response is written. Text is a
list of characters. R56 says how a line is written and nothing of a line that is not of that form: what the reader here
does with one is a DESIGN CHOICE (log 15). -/

namespace Sys2Proof.Machine

/-- A line of a program (R56, R57). -/
inductive Line where
  | reset
  | nop
  | init (key nonce : List Byte) (ctr : Word)
  | next
  | nextn (n : Nat)
  /-- An item in the binary form of R58: the `op` bits, then its operands. -/
  | coded (r : Request)
deriving DecidableEq, Repr

/-- The items a line stands for; NEXTN n is n NEXT (R57). -/
def Line.items : Line → List Item
  | .reset => [.reset]
  | .nop => [.request (bareRequest 0)]
  | .init key nonce ctr => [.request ⟨1, key, nonce, ctr⟩]
  | .next => [.request (bareRequest 2)]
  | .nextn n => List.replicate n (.request (bareRequest 2))
  | .coded r => [.request r]

/-- The items of a program (R58). -/
def programItems (p : List Line) : List Item := (p.map Line.items).flatten

/-- The host presents items on the request channel, after those already waiting (R39, R45). -/
def State.present (s : State) (items : List Item) : State := { s with channel := s.channel ++ items }

/-- The host raises the RESET input (R59). -/
def State.raiseReset (s : State) : State := { s with resetLine := true }

/-- The value of a hexadecimal digit. -/
def hexDigit (c : Char) : Option Nat :=
  let n := c.toNat
  if 48 ≤ n ∧ n ≤ 57 then some (n - 48)
  else if 97 ≤ n ∧ n ≤ 102 then some (n - 87)
  else if 65 ≤ n ∧ n ≤ 70 then some (n - 55)
  else none

/-- A run of two-digit hexadecimal bytes, byte 0 first (R56); spaces have been taken out. -/
def hexBytes : List Char → Option (List Byte)
  | [] => some []
  | [_] => none
  | c :: d :: rest =>
    match hexDigit c, hexDigit d, hexBytes rest with
    | some h, some l, some bs => some (BitVec.ofNat 8 (16 * h + l) :: bs)
    | _, _, _ => none

/-- The digits of a number in the given base, most significant first. -/
def digits (base acc : Nat) : List Char → Option Nat
  | [] => some acc
  | c :: rest =>
    match hexDigit c with
    | some d => if d < base then digits base (base * acc + d) rest else none
    | none => none

/-- A number without a bound: decimal, or hexadecimal after `0x` (R56). No digits at all are no number (DESIGN CHOICE,
log 15). -/
def number : List Char → Option Nat
  | [] => none
  | ['0', 'x'] => none
  | '0' :: 'x' :: ds => digits 16 0 ds
  | ds => digits 10 0 ds

/-- A counter: 0 to 0xffffffff (R56). -/
def counter (cs : List Char) : Option Word :=
  match number cs with
  | some n => if n < 4294967296 then some (BitVec.ofNat 32 n) else none
  | none => none

/-- Splits a line at spaces, and at nothing else; runs of spaces, and spaces at its ends, do not count (DESIGN CHOICE,
log 15). `cur` is the word being read, last character first. -/
def splitWords (cur : List Char) : List Char → List (List Char)
  | [] => if cur.isEmpty then [] else [cur.reverse]
  | c :: rest =>
    if c = ' ' then (if cur.isEmpty then splitWords [] rest else cur.reverse :: splitWords [] rest)
    else splitWords (c :: cur) rest

/-- The value of `name=` in a list of words: the rest of its word and the words after it that hold no `=` (R56: the bytes
may have spaces between them); empty if absent. DESIGN CHOICE (log 15), since R56 gives one order of the operands and no
other words: the operands may stand in any order, of two with the same name the first counts, words before the first
operand, words with `=` and another name, and the words after those are passed over, an absent operand reads as an empty
one, and the digits of a counter are joined over spaces as bytes are (`ctr=1 2` is 12). -/
def field (name : List Char) : List (List Char) → List Char
  | [] => []
  | x :: rest =>
    if name.isPrefixOf x then x.drop name.length ++ (rest.takeWhile fun y => !y.contains '=').flatten
    else field name rest

/-- The operands of a command in words: key bytes, nonce bytes, counter (R56). A key or nonce left out is read as the
empty byte sequence (DESIGN CHOICE, log 15). -/
def operands (ctr : Option Word) (ws : List (List Char)) : Option (List Byte × List Byte × Word) :=
  match hexBytes (field "key=".toList ws), hexBytes (field "nonce=".toList ws), ctr with
  | some k, some n, some c => some (k, n, c)
  | _, _, _ => none

/-- The counter of a coded item: 0 where it is left out, whatever the command (R58 writes NEXT as `10` alone; for the other
commands a DESIGN CHOICE, log 15). -/
def optionalCounter (ws : List (List Char)) : Option Word :=
  let c := field "ctr=".toList ws
  if c.isEmpty then some 0 else counter c

/-- Reads an item in the binary form of R58. -/
def parseCoded (op : BitVec 2) (ws : List (List Char)) : Option Line :=
  match operands (optionalCounter ws) ws with
  | some (k, n, c) => some (.coded ⟨op, k, n, c⟩)
  | none => none

/-- Reads the words of a line (R56, R57, R58). DESIGN CHOICE (log 15): RESET, NOP and NEXT with further words, NEXTN without
exactly one, INIT without a counter, and a line with no or an unknown first word are refused. -/
def parseWords : List (List Char) → Option Line
  | [] => none
  | m :: ws =>
    if m = "RESET".toList then (if ws.isEmpty then some .reset else none)
    else if m = "NOP".toList then (if ws.isEmpty then some .nop else none)
    else if m = "NEXT".toList then (if ws.isEmpty then some .next else none)
    else if m = "NEXTN".toList then
      match ws with
      | [n] => (number n).map .nextn
      | _ => none
    else if m = "INIT".toList then
      match operands (counter (field "ctr=".toList ws)) ws with
      | some (k, n, c) => some (.init k n c)
      | none => none
    else if m = "00".toList then parseCoded 0 ws
    else if m = "01".toList then parseCoded 1 ws
    else if m = "10".toList then parseCoded 2 ws
    else if m = "11".toList then parseCoded 3 ws
    else none

/-- Reads one line of a program (R56). -/
def parseLine (text : List Char) : Option Line := parseWords (splitWords [] text)

/-- The lower-case hexadecimal digit of a number below 16. -/
def hexChar (n : Nat) : Char := if n < 10 then Char.ofNat (48 + n) else Char.ofNat (87 + n)

/-- A word as eight hexadecimal digits, most significant first. -/
def wordText (v : Word) : List Char :=
  [28, 24, 20, 16, 12, 8, 4, 0].map fun k => hexChar ((v >>> k).toNat % 16)

/-- The name of a recorded fault (R140). -/
def Status.name : Status → List Char
  | .ok => "OK".toList
  | .invalidKeyLength => "InvalidKeyLength".toList
  | .invalidNonceLength => "InvalidNonceLength".toList
  | .notLoaded => "NotLoaded".toList
  | .illegalCommand => "IllegalCommand".toList

/-- A response as R56 writes it: `-> OK`, `-> OK <16 words>` or `-> FAULT <name>`. -/
def Response.text (r : Response) : List Char :=
  if r.status = .ok then
    "-> OK".toList ++
      match r.data with
      | none => []
      | some out => (out.toList.map fun v => ' ' :: wordText v).flatten
  else "-> FAULT ".toList ++ r.status.name

end Sys2Proof.Machine
end

