-- ==== Sys2Proof/Laws/State.lean ====
section
/-! SUPPORT. One lemma per field per update of the state, so that no proof unfolds a record update. -/

namespace Sys2Proof.Machine

/-! ### State.respond -/

@[simp] theorem State.respond_key (s : State) (data : Option Block) :
    (s.respond data).key = s.key := rfl
@[simp] theorem State.respond_ctr (s : State) (data : Option Block) :
    (s.respond data).ctr = s.ctr := rfl
@[simp] theorem State.respond_nonce (s : State) (data : Option Block) :
    (s.respond data).nonce = s.nonce := rfl
@[simp] theorem State.respond_loaded (s : State) (data : Option Block) :
    (s.respond data).loaded = s.loaded := rfl
@[simp] theorem State.respond_fault (s : State) (data : Option Block) :
    (s.respond data).fault = s.fault := rfl
@[simp] theorem State.respond_busy (s : State) (data : Option Block) :
    (s.respond data).busy = s.busy := rfl
@[simp] theorem State.respond_q (s : State) (data : Option Block) :
    (s.respond data).q = s.q := rfl
@[simp] theorem State.respond_w (s : State) (data : Option Block) :
    (s.respond data).w = s.w := rfl
@[simp] theorem State.respond_level (s : State) (data : Option Block) :
    (s.respond data).level = s.level := rfl
@[simp] theorem State.respond_resetLine (s : State) (data : Option Block) :
    (s.respond data).resetLine = s.resetLine := rfl
@[simp] theorem State.respond_channel (s : State) (data : Option Block) :
    (s.respond data).channel = s.channel := rfl
@[simp] theorem State.respond_responses (s : State) (data : Option Block) :
    (s.respond data).responses = s.responses ++ [⟨s.fault, data⟩] := rfl
@[simp] theorem State.respond_draws (s : State) (data : Option Block) :
    (s.respond data).draws = s.draws := rfl
@[simp] theorem State.respond_result (s : State) (data : Option Block) :
    (s.respond data).result = s.result := rfl

/-! ### State.raise -/

@[simp] theorem State.raise_key (s : State) (k : Status) :
    (s.raise k).key = s.key := rfl
@[simp] theorem State.raise_ctr (s : State) (k : Status) :
    (s.raise k).ctr = s.ctr := rfl
@[simp] theorem State.raise_nonce (s : State) (k : Status) :
    (s.raise k).nonce = s.nonce := rfl
@[simp] theorem State.raise_loaded (s : State) (k : Status) :
    (s.raise k).loaded = s.loaded := rfl
@[simp] theorem State.raise_fault (s : State) (k : Status) :
    (s.raise k).fault = k := rfl
@[simp] theorem State.raise_busy (s : State) (k : Status) :
    (s.raise k).busy = s.busy := rfl
@[simp] theorem State.raise_q (s : State) (k : Status) :
    (s.raise k).q = s.q := rfl
@[simp] theorem State.raise_w (s : State) (k : Status) :
    (s.raise k).w = s.w := rfl
@[simp] theorem State.raise_level (s : State) (k : Status) :
    (s.raise k).level = s.level := rfl
@[simp] theorem State.raise_resetLine (s : State) (k : Status) :
    (s.raise k).resetLine = s.resetLine := rfl
@[simp] theorem State.raise_channel (s : State) (k : Status) :
    (s.raise k).channel = s.channel := rfl
@[simp] theorem State.raise_responses (s : State) (k : Status) :
    (s.raise k).responses = s.responses ++ [⟨k, none⟩] := rfl
@[simp] theorem State.raise_draws (s : State) (k : Status) :
    (s.raise k).draws = s.draws := rfl
@[simp] theorem State.raise_result (s : State) (k : Status) :
    (s.raise k).result = s.result := rfl

/-! ### State.load -/

@[simp] theorem State.load_key (s : State) (k : Vector Byte 32) (n : Vector Byte 12) (c : Word) :
    (s.load k n c).key = keyWords k := rfl
@[simp] theorem State.load_ctr (s : State) (k : Vector Byte 32) (n : Vector Byte 12) (c : Word) :
    (s.load k n c).ctr = c := rfl
@[simp] theorem State.load_nonce (s : State) (k : Vector Byte 32) (n : Vector Byte 12) (c : Word) :
    (s.load k n c).nonce = nonceWords n := rfl
@[simp] theorem State.load_loaded (s : State) (k : Vector Byte 32) (n : Vector Byte 12) (c : Word) :
    (s.load k n c).loaded = true := rfl
@[simp] theorem State.load_fault (s : State) (k : Vector Byte 32) (n : Vector Byte 12) (c : Word) :
    (s.load k n c).fault = s.fault := rfl
@[simp] theorem State.load_busy (s : State) (k : Vector Byte 32) (n : Vector Byte 12) (c : Word) :
    (s.load k n c).busy = s.busy := rfl
@[simp] theorem State.load_q (s : State) (k : Vector Byte 32) (n : Vector Byte 12) (c : Word) :
    (s.load k n c).q = s.q := rfl
@[simp] theorem State.load_w (s : State) (k : Vector Byte 32) (n : Vector Byte 12) (c : Word) :
    (s.load k n c).w = s.w := rfl
@[simp] theorem State.load_level (s : State) (k : Vector Byte 32) (n : Vector Byte 12) (c : Word) :
    (s.load k n c).level = s.level := rfl
@[simp] theorem State.load_resetLine (s : State) (k : Vector Byte 32) (n : Vector Byte 12) (c : Word) :
    (s.load k n c).resetLine = s.resetLine := rfl
@[simp] theorem State.load_channel (s : State) (k : Vector Byte 32) (n : Vector Byte 12) (c : Word) :
    (s.load k n c).channel = s.channel := rfl
@[simp] theorem State.load_responses (s : State) (k : Vector Byte 32) (n : Vector Byte 12) (c : Word) :
    (s.load k n c).responses = s.responses ++ [⟨s.fault, none⟩] := rfl
@[simp] theorem State.load_draws (s : State) (k : Vector Byte 32) (n : Vector Byte 12) (c : Word) :
    (s.load k n c).draws = s.draws := rfl
@[simp] theorem State.load_result (s : State) (k : Vector Byte 32) (n : Vector Byte 12) (c : Word) :
    (s.load k n c).result = s.result := rfl

/-! ### State.advance -/

@[simp] theorem State.advance_key (s : State) :
    (s.advance).key = s.key := rfl
@[simp] theorem State.advance_ctr (s : State) :
    (s.advance).ctr = ctrInc s.ctr := rfl
@[simp] theorem State.advance_nonce (s : State) :
    (s.advance).nonce = s.nonce := rfl
@[simp] theorem State.advance_loaded (s : State) :
    (s.advance).loaded = s.loaded := rfl
@[simp] theorem State.advance_fault (s : State) :
    (s.advance).fault = s.fault := rfl
@[simp] theorem State.advance_busy (s : State) :
    (s.advance).busy = s.busy := rfl
@[simp] theorem State.advance_q (s : State) :
    (s.advance).q = s.q := rfl
@[simp] theorem State.advance_w (s : State) :
    (s.advance).w = mixed s.words := rfl
@[simp] theorem State.advance_level (s : State) :
    (s.advance).level = s.level := rfl
@[simp] theorem State.advance_resetLine (s : State) :
    (s.advance).resetLine = s.resetLine := rfl
@[simp] theorem State.advance_channel (s : State) :
    (s.advance).channel = s.channel := rfl
@[simp] theorem State.advance_responses (s : State) :
    (s.advance).responses = s.responses ++ [⟨s.fault, some (blockTransform s.words)⟩] := rfl
@[simp] theorem State.advance_draws (s : State) :
    (s.advance).draws = s.draws := rfl
@[simp] theorem State.advance_result (s : State) :
    (s.advance).result = s.result := rfl

/-! ### State.accept -/

@[simp] theorem State.accept_key (s : State) :
    (s.accept).key = s.key := rfl
@[simp] theorem State.accept_ctr (s : State) :
    (s.accept).ctr = s.ctr := rfl
@[simp] theorem State.accept_nonce (s : State) :
    (s.accept).nonce = s.nonce := rfl
@[simp] theorem State.accept_loaded (s : State) :
    (s.accept).loaded = s.loaded := rfl
@[simp] theorem State.accept_fault (s : State) :
    (s.accept).fault = s.fault := rfl
@[simp] theorem State.accept_busy (s : State) :
    (s.accept).busy = true := rfl
@[simp] theorem State.accept_q (s : State) :
    (s.accept).q = 0 := rfl
@[simp] theorem State.accept_w (s : State) :
    (s.accept).w = s.words := rfl
@[simp] theorem State.accept_level (s : State) :
    (s.accept).level = s.level := rfl
@[simp] theorem State.accept_resetLine (s : State) :
    (s.accept).resetLine = s.resetLine := rfl
@[simp] theorem State.accept_channel (s : State) :
    (s.accept).channel = s.channel := rfl
@[simp] theorem State.accept_responses (s : State) :
    (s.accept).responses = s.responses := rfl
@[simp] theorem State.accept_draws (s : State) :
    (s.accept).draws = s.draws := rfl
@[simp] theorem State.accept_result (s : State) :
    (s.accept).result = s.result := rfl

/-! ### State.slotStep -/

@[simp] theorem State.slotStep_key (s : State) (r : Fin 10) (slot : Fin 8) :
    (s.slotStep r slot).key = s.key := rfl
@[simp] theorem State.slotStep_ctr (s : State) (r : Fin 10) (slot : Fin 8) :
    (s.slotStep r slot).ctr = s.ctr := rfl
@[simp] theorem State.slotStep_nonce (s : State) (r : Fin 10) (slot : Fin 8) :
    (s.slotStep r slot).nonce = s.nonce := rfl
@[simp] theorem State.slotStep_loaded (s : State) (r : Fin 10) (slot : Fin 8) :
    (s.slotStep r slot).loaded = s.loaded := rfl
@[simp] theorem State.slotStep_fault (s : State) (r : Fin 10) (slot : Fin 8) :
    (s.slotStep r slot).fault = s.fault := rfl
@[simp] theorem State.slotStep_busy (s : State) (r : Fin 10) (slot : Fin 8) :
    (s.slotStep r slot).busy = s.busy := rfl
@[simp] theorem State.slotStep_q (s : State) (r : Fin 10) (slot : Fin 8) :
    (s.slotStep r slot).q = ⟨8 * r.val + slot.val + 1, by omega⟩ := rfl
@[simp] theorem State.slotStep_w (s : State) (r : Fin 10) (slot : Fin 8) :
    (s.slotStep r slot).w = slotRound s.w slot := rfl
@[simp] theorem State.slotStep_level (s : State) (r : Fin 10) (slot : Fin 8) :
    (s.slotStep r slot).level = s.level := rfl
@[simp] theorem State.slotStep_resetLine (s : State) (r : Fin 10) (slot : Fin 8) :
    (s.slotStep r slot).resetLine = s.resetLine := rfl
@[simp] theorem State.slotStep_channel (s : State) (r : Fin 10) (slot : Fin 8) :
    (s.slotStep r slot).channel = s.channel := rfl
@[simp] theorem State.slotStep_responses (s : State) (r : Fin 10) (slot : Fin 8) :
    (s.slotStep r slot).responses = s.responses := rfl
@[simp] theorem State.slotStep_draws (s : State) (r : Fin 10) (slot : Fin 8) :
    (s.slotStep r slot).draws = s.draws := rfl
@[simp] theorem State.slotStep_result (s : State) (r : Fin 10) (slot : Fin 8) :
    (s.slotStep r slot).result = s.result := rfl

/-! ### State.deliver -/

@[simp] theorem State.deliver_key (s : State) :
    (s.deliver).key = s.key := rfl
@[simp] theorem State.deliver_ctr (s : State) :
    (s.deliver).ctr = ctrInc s.ctr := rfl
@[simp] theorem State.deliver_nonce (s : State) :
    (s.deliver).nonce = s.nonce := rfl
@[simp] theorem State.deliver_loaded (s : State) :
    (s.deliver).loaded = s.loaded := rfl
@[simp] theorem State.deliver_fault (s : State) :
    (s.deliver).fault = s.fault := rfl
@[simp] theorem State.deliver_busy (s : State) :
    (s.deliver).busy = false := rfl
@[simp] theorem State.deliver_q (s : State) :
    (s.deliver).q = s.q := rfl
@[simp] theorem State.deliver_w (s : State) :
    (s.deliver).w = s.w := rfl
@[simp] theorem State.deliver_level (s : State) :
    (s.deliver).level = s.level := rfl
@[simp] theorem State.deliver_resetLine (s : State) :
    (s.deliver).resetLine = s.resetLine := rfl
@[simp] theorem State.deliver_channel (s : State) :
    (s.deliver).channel = s.channel := rfl
@[simp] theorem State.deliver_responses (s : State) :
    (s.deliver).responses = s.responses ++ [⟨.ok, some (feedForward s.w s.words)⟩] := rfl
@[simp] theorem State.deliver_draws (s : State) :
    (s.deliver).draws = s.draws := rfl
@[simp] theorem State.deliver_result (s : State) :
    (s.deliver).result = s.result := rfl

/-! ### State.clear -/

@[simp] theorem State.clear_key (s : State) :
    (s.clear).key = Config.noValueKey s.draws := rfl
@[simp] theorem State.clear_ctr (s : State) :
    (s.clear).ctr = Config.noValueWord s.draws 12 := rfl
@[simp] theorem State.clear_nonce (s : State) :
    (s.clear).nonce = Config.noValueNonce s.draws := rfl
@[simp] theorem State.clear_loaded (s : State) :
    (s.clear).loaded = false := rfl
@[simp] theorem State.clear_fault (s : State) :
    (s.clear).fault = .ok := rfl
@[simp] theorem State.clear_busy (s : State) :
    (s.clear).busy = false := rfl
@[simp] theorem State.clear_q (s : State) :
    (s.clear).q = Config.noValueIndex s.draws := rfl
@[simp] theorem State.clear_w (s : State) :
    (s.clear).w = Config.noValueBuffer s.draws := rfl
@[simp] theorem State.clear_level (s : State) :
    (s.clear).level = s.level := rfl
@[simp] theorem State.clear_resetLine (s : State) :
    (s.clear).resetLine = s.resetLine := rfl
@[simp] theorem State.clear_channel (s : State) :
    (s.clear).channel = s.channel := rfl
@[simp] theorem State.clear_responses (s : State) :
    (s.clear).responses = s.responses := rfl
@[simp] theorem State.clear_draws (s : State) :
    (s.clear).draws = s.draws + 1 := rfl
@[simp] theorem State.clear_result (s : State) :
    (s.clear).result = s.result := rfl

/-! ### State.present -/

@[simp] theorem State.present_key (s : State) (items : List Item) :
    (s.present items).key = s.key := rfl
@[simp] theorem State.present_ctr (s : State) (items : List Item) :
    (s.present items).ctr = s.ctr := rfl
@[simp] theorem State.present_nonce (s : State) (items : List Item) :
    (s.present items).nonce = s.nonce := rfl
@[simp] theorem State.present_loaded (s : State) (items : List Item) :
    (s.present items).loaded = s.loaded := rfl
@[simp] theorem State.present_fault (s : State) (items : List Item) :
    (s.present items).fault = s.fault := rfl
@[simp] theorem State.present_busy (s : State) (items : List Item) :
    (s.present items).busy = s.busy := rfl
@[simp] theorem State.present_q (s : State) (items : List Item) :
    (s.present items).q = s.q := rfl
@[simp] theorem State.present_w (s : State) (items : List Item) :
    (s.present items).w = s.w := rfl
@[simp] theorem State.present_level (s : State) (items : List Item) :
    (s.present items).level = s.level := rfl
@[simp] theorem State.present_resetLine (s : State) (items : List Item) :
    (s.present items).resetLine = s.resetLine := rfl
@[simp] theorem State.present_channel (s : State) (items : List Item) :
    (s.present items).channel = s.channel ++ items := rfl
@[simp] theorem State.present_responses (s : State) (items : List Item) :
    (s.present items).responses = s.responses := rfl
@[simp] theorem State.present_draws (s : State) (items : List Item) :
    (s.present items).draws = s.draws := rfl
@[simp] theorem State.present_result (s : State) (items : List Item) :
    (s.present items).result = s.result := rfl

/-! ### State.raiseReset -/

@[simp] theorem State.raiseReset_key (s : State) :
    (s.raiseReset).key = s.key := rfl
@[simp] theorem State.raiseReset_ctr (s : State) :
    (s.raiseReset).ctr = s.ctr := rfl
@[simp] theorem State.raiseReset_nonce (s : State) :
    (s.raiseReset).nonce = s.nonce := rfl
@[simp] theorem State.raiseReset_loaded (s : State) :
    (s.raiseReset).loaded = s.loaded := rfl
@[simp] theorem State.raiseReset_fault (s : State) :
    (s.raiseReset).fault = s.fault := rfl
@[simp] theorem State.raiseReset_busy (s : State) :
    (s.raiseReset).busy = s.busy := rfl
@[simp] theorem State.raiseReset_q (s : State) :
    (s.raiseReset).q = s.q := rfl
@[simp] theorem State.raiseReset_w (s : State) :
    (s.raiseReset).w = s.w := rfl
@[simp] theorem State.raiseReset_level (s : State) :
    (s.raiseReset).level = s.level := rfl
@[simp] theorem State.raiseReset_resetLine (s : State) :
    (s.raiseReset).resetLine = true := rfl
@[simp] theorem State.raiseReset_channel (s : State) :
    (s.raiseReset).channel = s.channel := rfl
@[simp] theorem State.raiseReset_responses (s : State) :
    (s.raiseReset).responses = s.responses := rfl
@[simp] theorem State.raiseReset_draws (s : State) :
    (s.raiseReset).draws = s.draws := rfl
@[simp] theorem State.raiseReset_result (s : State) :
    (s.raiseReset).result = s.result := rfl

end Sys2Proof.Machine
end

