-- ==== Sys2Proof/Laws/Ops.lean ====
section
/-! SUPPORT. What each shared operation does, said once: the primitives, the words of a block, the quarter round, the
commands. -/

namespace Sys2Proof.Machine

/-! ### Blocks -/

@[simp] theorem blockOf_get (f : Fin 16 → Word) (i : Fin 16) : (blockOf f)[i] = f i := by
  fin_cases i <;> rfl

@[simp] theorem feedForward_get (w words : Block) (i : Fin 16) : (feedForward w words)[i] = w[i] + words[i] :=
  blockOf_get _ i

theorem block_ext {v w : Block} (h : ∀ i : Fin 16, v[i] = w[i]) : v = w :=
  Vector.ext fun i hi => h ⟨i, hi⟩

@[simp] theorem wordsOf_key (k : Vector Word 8) (c : Word) (n : Vector Word 3) (i : Fin 8) :
    (wordsOf k c n)[4 + i.val] = k[i] := by
  fin_cases i <;> rfl

@[simp] theorem wordsOf_ctr (k : Vector Word 8) (c : Word) (n : Vector Word 3) : (wordsOf k c n)[12] = c := rfl

@[simp] theorem wordsOf_nonce (k : Vector Word 8) (c : Word) (n : Vector Word 3) (i : Fin 3) :
    (wordsOf k c n)[13 + i.val] = n[i] := by
  fin_cases i <;> rfl

/-! ### Primitives -/

theorem rotl32_eq_rotateLeft (v : Word) (n : Fin 32) : rotl32 v n = v.rotateLeft n.val := by
  simp [rotl32, BitVec.rotateLeft, BitVec.rotateLeftAux, Nat.mod_eq_of_lt n.isLt]

theorem rotl32_bit (v : Word) (n i : Fin 32) :
    (rotl32 v n).getLsbD ((i.val + n.val) % 32) = v.getLsbD i.val := by
  obtain ⟨n, hn⟩ := n
  obtain ⟨i, hi⟩ := i
  simp only [rotl32, BitVec.getLsbD_or, BitVec.getLsbD_shiftLeft, BitVec.getLsbD_ushiftRight]
  by_cases h : i + n < 32
  · have e : (i + n) % 32 = i + n := Nat.mod_eq_of_lt h
    have hz : v.getLsbD (32 - n + (i + n)) = false := BitVec.getLsbD_of_ge _ _ (by omega)
    simp [e, h, hz]
  · have e : (i + n) % 32 = i + n - 32 := by omega
    have hlt : i + n - 32 < n := by omega
    have hs : 32 - n + (i + n - 32) = i := by omega
    simp [e, hlt, hs]

/-- The arithmetic form of R107. -/
theorem rotl32_toNat (v : Word) (n : Fin 32) (h : 0 < n.val) :
    (rotl32 v n).toNat = v.toNat * 2 ^ n.val % 2 ^ 32 + v.toNat / 2 ^ (32 - n.val) := by
  obtain ⟨n, hn⟩ := n
  have hv := v.isLt
  have hd : v.toNat / 2 ^ (32 - n) < 2 ^ n := by
    rw [Nat.div_lt_iff_lt_mul (by positivity), ← Nat.pow_add]
    simpa [Nat.add_sub_cancel' (Nat.le_of_lt hn)] using hv
  have hm : v.toNat * 2 ^ n % 2 ^ 32 = 2 ^ n * (v.toNat % 2 ^ (32 - n)) := by
    have e : (2 : Nat) ^ 32 = 2 ^ n * 2 ^ (32 - n) := by rw [← Nat.pow_add]; congr 1; omega
    rw [e, Nat.mul_comm v.toNat, Nat.mul_mod_mul_left]
  have := Nat.two_pow_add_eq_or_of_lt hd (v.toNat % 2 ^ (32 - n))
  simp only [rotl32, BitVec.toNat_or, BitVec.toNat_shiftLeft, BitVec.toNat_ushiftRight, Nat.shiftLeft_eq,
    Nat.shiftRight_eq_div_pow]
  rw [hm, this]

theorem le32_toNat (b : Vector Byte 4) :
    (le32 b).toNat = b[0].toNat + 2 ^ 8 * b[1].toNat + 2 ^ 16 * b[2].toNat + 2 ^ 24 * b[3].toNat := by
  have h0 := b[0].isLt
  have h1 := b[1].isLt
  have h2 := b[2].isLt
  simp only [le32, BitVec.toNat_append]
  rw [← Nat.shiftLeft_add_eq_or_of_lt h0, ← Nat.shiftLeft_add_eq_or_of_lt h1, ← Nat.shiftLeft_add_eq_or_of_lt h2]
  simp only [Nat.shiftLeft_eq]
  omega

theorem exactBytes_of_length {n : Nat} {b : List Byte} (h : b.length = n) :
    exactBytes n b = some ⟨b.toArray, by simpa using h⟩ := by simp [exactBytes, h]

theorem exactBytes_eq_none {n : Nat} {b : List Byte} (h : b.length ≠ n) : exactBytes n b = none := by
  simp [exactBytes, h]

/-! ### The quarter round -/

theorem distinctPositions_iff {a b c d : Fin 16} :
    distinctPositions a b c d = true ↔ a ≠ b ∧ a ≠ c ∧ a ≠ d ∧ b ≠ c ∧ b ≠ d ∧ c ≠ d := by
  simp [distinctPositions, and_assoc]

/-- The words of a quarter round on distinct positions (R93, R94). -/
theorem quarterRound_values (w : Block) {a b c d : Fin 16} (h : distinctPositions a b c d = true) :
    let a₁ := add32 w[a] w[b]
    let d₁ := rotl32 (xor32 w[d] a₁) 16
    let c₁ := add32 w[c] d₁
    let b₁ := rotl32 (xor32 w[b] c₁) 12
    let a₂ := add32 a₁ b₁
    let d₂ := rotl32 (xor32 d₁ a₂) 8
    let c₂ := add32 c₁ d₂
    let b₂ := rotl32 (xor32 b₁ c₂) 7
    (quarterRound w a b c d)[a] = a₂ ∧ (quarterRound w a b c d)[b] = b₂ ∧
    (quarterRound w a b c d)[c] = c₂ ∧ (quarterRound w a b c d)[d] = d₂ ∧
    ∀ i : Fin 16, i ≠ a → i ≠ b → i ≠ c → i ≠ d → (quarterRound w a b c d)[i] = w[i] := by
  obtain ⟨hab, hac, had, hbc, hbd, hcd⟩ := distinctPositions_iff.1 h
  have hab := Fin.val_ne_of_ne hab
  have hac := Fin.val_ne_of_ne hac
  have had := Fin.val_ne_of_ne had
  have hbc := Fin.val_ne_of_ne hbc
  have hbd := Fin.val_ne_of_ne hbd
  have hcd := Fin.val_ne_of_ne hcd
  refine ⟨?_, ?_, ?_, ?_, ?_⟩
  iterate 4
    simp [quarterRound, hab, hac, had, hbc, hbd, hcd, hab.symm, hac.symm, had.symm, hbc.symm,
      hbd.symm, hcd.symm]
  intro i ia ib ic id
  have ia := (Fin.val_ne_of_ne ia).symm
  have ib := (Fin.val_ne_of_ne ib).symm
  have ic := (Fin.val_ne_of_ne ic).symm
  have id := (Fin.val_ne_of_ne id).symm
  simp [quarterRound, Vector.getElem_set, ia, ib, ic, id]

/-- Quarter rounds on disjoint positions commute (R96, R97). -/
theorem quarterRound_comm (w : Block) {a b c d e f g h : Fin 16} (h1 : distinctPositions a b c d = true)
    (h2 : distinctPositions e f g h = true) (hd : ∀ x ∈ [a, b, c, d], x ∉ [e, f, g, h]) :
    quarterRound (quarterRound w a b c d) e f g h = quarterRound (quarterRound w e f g h) a b c d := by
  obtain ⟨p1, p2, p3, p4, p5⟩ := quarterRound_values (quarterRound w a b c d) h2
  obtain ⟨q1, q2, q3, q4, q5⟩ := quarterRound_values (quarterRound w e f g h) h1
  obtain ⟨r1, r2, r3, r4, r5⟩ := quarterRound_values w h1
  obtain ⟨s1, s2, s3, s4, s5⟩ := quarterRound_values w h2
  simp only [List.mem_cons, List.not_mem_nil, or_false, not_or, forall_eq_or_imp, forall_eq] at hd
  obtain ⟨⟨a1, a2, a3, a4⟩, ⟨b1, b2, b3, b4⟩, ⟨c1, c2, c3, c4⟩, d1, d2, d3, d4⟩ := hd
  have ra := r5 e (Ne.symm a1) (Ne.symm b1) (Ne.symm c1) (Ne.symm d1)
  have rb := r5 f (Ne.symm a2) (Ne.symm b2) (Ne.symm c2) (Ne.symm d2)
  have rc := r5 g (Ne.symm a3) (Ne.symm b3) (Ne.symm c3) (Ne.symm d3)
  have rd := r5 h (Ne.symm a4) (Ne.symm b4) (Ne.symm c4) (Ne.symm d4)
  have sa := s5 a a1 a2 a3 a4
  have sb := s5 b b1 b2 b3 b4
  have sc := s5 c c1 c2 c3 c4
  have sd := s5 d d1 d2 d3 d4
  apply block_ext
  intro i
  by_cases ie : i = e
  · subst ie; rw [p1, q5 _ (Ne.symm a1) (Ne.symm b1) (Ne.symm c1) (Ne.symm d1), s1]; simp only [ra, rb, rc, rd]
  by_cases ig : i = f
  · subst ig; rw [p2, q5 _ (Ne.symm a2) (Ne.symm b2) (Ne.symm c2) (Ne.symm d2), s2]; simp only [ra, rb, rc, rd]
  by_cases ih : i = g
  · subst ih; rw [p3, q5 _ (Ne.symm a3) (Ne.symm b3) (Ne.symm c3) (Ne.symm d3), s3]; simp only [ra, rb, rc, rd]
  by_cases ij : i = h
  · subst ij; rw [p4, q5 _ (Ne.symm a4) (Ne.symm b4) (Ne.symm c4) (Ne.symm d4), s4]; simp only [ra, rb, rc, rd]
  rw [p5 i ie ig ih ij]
  by_cases ia : i = a
  · subst ia; rw [q1, r1]; simp only [sa, sb, sc, sd]
  by_cases ib : i = b
  · subst ib; rw [q2, r2]; simp only [sa, sb, sc, sd]
  by_cases ic : i = c
  · subst ic; rw [q3, r3]; simp only [sa, sb, sc, sd]
  by_cases id : i = d
  · subst id; rw [q4, r4]; simp only [sa, sb, sc, sd]
  rw [q5 i ia ib ic id, r5 i ia ib ic id, s5 i ie ig ih ij]

/-- The eight tuples are of distinct positions (R94). -/
theorem tuple_distinct (k : Fin 8) :
    distinctPositions (tuple k).1 (tuple k).2.1 (tuple k).2.2.1 (tuple k).2.2.2 = true := by
  revert k; decide

/-- The double rounds are eight quarter rounds each, in slot order (R92, R122). -/
theorem doubleRound_slots (w : Block) :
    doubleRound w =
      slotRound (slotRound (slotRound (slotRound (slotRound (slotRound (slotRound (slotRound w 0) 1) 2) 3) 4) 5) 6) 7 :=
  rfl

/-! ### Commands -/

theorem State.unlessFaulted_ok {s : State} (h : s.fault = .ok) (body : State) : s.unlessFaulted body = body := by
  simp [State.unlessFaulted, State.faulted, h]

theorem State.unlessFaulted_faulted {s : State} (h : s.fault ≠ .ok) (body : State) :
    s.unlessFaulted body = s.respond none := by
  simp [State.unlessFaulted, State.faulted, h]

/-- Everything INIT can do (R65, R66, R147). -/
theorem State.init_cases (s : State) (key nonce : List Byte) (ctr : Word) :
    (s.fault ≠ .ok ∧ s.init key nonce ctr = s.respond none) ∨
    (s.fault = .ok ∧ key.length ≠ 32 ∧ s.init key nonce ctr = s.raise .invalidKeyLength) ∨
    (s.fault = .ok ∧ key.length = 32 ∧ nonce.length ≠ 12 ∧ s.init key nonce ctr = s.raise .invalidNonceLength) ∨
    (s.fault = .ok ∧ ∃ (hk : key.length = 32) (hn : nonce.length = 12),
      s.init key nonce ctr = s.load ⟨key.toArray, by simpa using hk⟩ ⟨nonce.toArray, by simpa using hn⟩ ctr) := by
  by_cases hf : s.fault = .ok
  · by_cases hk : key.length = 32
    · by_cases hn : nonce.length = 12
      · exact .inr (.inr (.inr ⟨hf, hk, hn, by
          simp only [State.init, unlessFaulted_ok hf, exactBytes_of_length hk, exactBytes_of_length hn]⟩))
      · exact .inr (.inr (.inl ⟨hf, hk, hn, by
          simp only [State.init, unlessFaulted_ok hf, exactBytes_of_length hk, exactBytes_eq_none hn]⟩))
    · exact .inr (.inl ⟨hf, hk, by simp only [State.init, unlessFaulted_ok hf, exactBytes_eq_none hk]⟩)
  · exact .inl ⟨hf, by simp only [State.init, unlessFaulted_faulted hf]⟩

/-- Everything NEXT can do at the transaction level (R80, R143, R147). -/
theorem State.next_cases (s : State) :
    (s.fault ≠ .ok ∧ s.next = s.respond none) ∨
    (s.fault = .ok ∧ s.loaded = false ∧ s.next = s.raise .notLoaded) ∨
    (s.fault = .ok ∧ s.loaded = true ∧ s.next = s.advance) := by
  by_cases hf : s.fault = .ok
  · cases hl : s.loaded <;> simp [State.next, unlessFaulted_ok hf, hf, hl]
  · simp [State.next, unlessFaulted_faulted hf, hf]

/-- NEXT on a loaded, fault-free block (R80). -/
theorem State.next_of_loaded {s : State} (hf : s.fault = .ok) (hl : s.loaded = true) : s.next = s.advance := by
  simp [State.next, unlessFaulted_ok hf, hl]

/-- Everything the reserved code can do (R144, R147). -/
theorem State.reserved_cases (s : State) :
    (s.fault ≠ .ok ∧ s.reserved = s.respond none) ∨ (s.fault = .ok ∧ s.reserved = s.raise .illegalCommand) := by
  by_cases hf : s.fault = .ok
  · simp [State.reserved, unlessFaulted_ok hf, hf]
  · simp [State.reserved, unlessFaulted_faulted hf, hf]

/-! ### What the commands leave alone -/

@[simp] theorem State.init_busy (s : State) (key nonce : List Byte) (ctr : Word) : (s.init key nonce ctr).busy = s.busy := by
  rcases s.init_cases key nonce ctr with ⟨_, h⟩ | ⟨_, _, h⟩ | ⟨_, _, _, h⟩ | ⟨_, _, _, h⟩ <;> rw [h] <;> rfl
@[simp] theorem State.init_q (s : State) (key nonce : List Byte) (ctr : Word) : (s.init key nonce ctr).q = s.q := by
  rcases s.init_cases key nonce ctr with ⟨_, h⟩ | ⟨_, _, h⟩ | ⟨_, _, _, h⟩ | ⟨_, _, _, h⟩ <;> rw [h] <;> rfl
@[simp] theorem State.init_w (s : State) (key nonce : List Byte) (ctr : Word) : (s.init key nonce ctr).w = s.w := by
  rcases s.init_cases key nonce ctr with ⟨_, h⟩ | ⟨_, _, h⟩ | ⟨_, _, _, h⟩ | ⟨_, _, _, h⟩ <;> rw [h] <;> rfl
@[simp] theorem State.init_level (s : State) (key nonce : List Byte) (ctr : Word) : (s.init key nonce ctr).level = s.level := by
  rcases s.init_cases key nonce ctr with ⟨_, h⟩ | ⟨_, _, h⟩ | ⟨_, _, _, h⟩ | ⟨_, _, _, h⟩ <;> rw [h] <;> rfl
@[simp] theorem State.init_resetLine (s : State) (key nonce : List Byte) (ctr : Word) : (s.init key nonce ctr).resetLine = s.resetLine := by
  rcases s.init_cases key nonce ctr with ⟨_, h⟩ | ⟨_, _, h⟩ | ⟨_, _, _, h⟩ | ⟨_, _, _, h⟩ <;> rw [h] <;> rfl
@[simp] theorem State.init_channel (s : State) (key nonce : List Byte) (ctr : Word) : (s.init key nonce ctr).channel = s.channel := by
  rcases s.init_cases key nonce ctr with ⟨_, h⟩ | ⟨_, _, h⟩ | ⟨_, _, _, h⟩ | ⟨_, _, _, h⟩ <;> rw [h] <;> rfl
@[simp] theorem State.init_draws (s : State) (key nonce : List Byte) (ctr : Word) : (s.init key nonce ctr).draws = s.draws := by
  rcases s.init_cases key nonce ctr with ⟨_, h⟩ | ⟨_, _, h⟩ | ⟨_, _, _, h⟩ | ⟨_, _, _, h⟩ <;> rw [h] <;> rfl
@[simp] theorem State.init_result (s : State) (key nonce : List Byte) (ctr : Word) : (s.init key nonce ctr).result = s.result := by
  rcases s.init_cases key nonce ctr with ⟨_, h⟩ | ⟨_, _, h⟩ | ⟨_, _, _, h⟩ | ⟨_, _, _, h⟩ <;> rw [h] <;> rfl

@[simp] theorem State.next_key (s : State) : (s.next).key = s.key := by
  rcases s.next_cases with ⟨_, h⟩ | ⟨_, _, h⟩ | ⟨_, _, h⟩ <;> rw [h] <;> rfl
@[simp] theorem State.next_nonce (s : State) : (s.next).nonce = s.nonce := by
  rcases s.next_cases with ⟨_, h⟩ | ⟨_, _, h⟩ | ⟨_, _, h⟩ <;> rw [h] <;> rfl
@[simp] theorem State.next_loaded (s : State) : (s.next).loaded = s.loaded := by
  rcases s.next_cases with ⟨_, h⟩ | ⟨_, _, h⟩ | ⟨_, _, h⟩ <;> rw [h] <;> rfl
@[simp] theorem State.next_busy (s : State) : (s.next).busy = s.busy := by
  rcases s.next_cases with ⟨_, h⟩ | ⟨_, _, h⟩ | ⟨_, _, h⟩ <;> rw [h] <;> rfl
@[simp] theorem State.next_q (s : State) : (s.next).q = s.q := by
  rcases s.next_cases with ⟨_, h⟩ | ⟨_, _, h⟩ | ⟨_, _, h⟩ <;> rw [h] <;> rfl
@[simp] theorem State.next_level (s : State) : (s.next).level = s.level := by
  rcases s.next_cases with ⟨_, h⟩ | ⟨_, _, h⟩ | ⟨_, _, h⟩ <;> rw [h] <;> rfl
@[simp] theorem State.next_resetLine (s : State) : (s.next).resetLine = s.resetLine := by
  rcases s.next_cases with ⟨_, h⟩ | ⟨_, _, h⟩ | ⟨_, _, h⟩ <;> rw [h] <;> rfl
@[simp] theorem State.next_channel (s : State) : (s.next).channel = s.channel := by
  rcases s.next_cases with ⟨_, h⟩ | ⟨_, _, h⟩ | ⟨_, _, h⟩ <;> rw [h] <;> rfl
@[simp] theorem State.next_draws (s : State) : (s.next).draws = s.draws := by
  rcases s.next_cases with ⟨_, h⟩ | ⟨_, _, h⟩ | ⟨_, _, h⟩ <;> rw [h] <;> rfl
@[simp] theorem State.next_result (s : State) : (s.next).result = s.result := by
  rcases s.next_cases with ⟨_, h⟩ | ⟨_, _, h⟩ | ⟨_, _, h⟩ <;> rw [h] <;> rfl

@[simp] theorem State.reserved_key (s : State) : (s.reserved).key = s.key := by
  rcases s.reserved_cases with ⟨_, h⟩ | ⟨_, h⟩ <;> rw [h] <;> rfl
@[simp] theorem State.reserved_ctr (s : State) : (s.reserved).ctr = s.ctr := by
  rcases s.reserved_cases with ⟨_, h⟩ | ⟨_, h⟩ <;> rw [h] <;> rfl
@[simp] theorem State.reserved_nonce (s : State) : (s.reserved).nonce = s.nonce := by
  rcases s.reserved_cases with ⟨_, h⟩ | ⟨_, h⟩ <;> rw [h] <;> rfl
@[simp] theorem State.reserved_loaded (s : State) : (s.reserved).loaded = s.loaded := by
  rcases s.reserved_cases with ⟨_, h⟩ | ⟨_, h⟩ <;> rw [h] <;> rfl
@[simp] theorem State.reserved_busy (s : State) : (s.reserved).busy = s.busy := by
  rcases s.reserved_cases with ⟨_, h⟩ | ⟨_, h⟩ <;> rw [h] <;> rfl
@[simp] theorem State.reserved_q (s : State) : (s.reserved).q = s.q := by
  rcases s.reserved_cases with ⟨_, h⟩ | ⟨_, h⟩ <;> rw [h] <;> rfl
@[simp] theorem State.reserved_w (s : State) : (s.reserved).w = s.w := by
  rcases s.reserved_cases with ⟨_, h⟩ | ⟨_, h⟩ <;> rw [h] <;> rfl
@[simp] theorem State.reserved_level (s : State) : (s.reserved).level = s.level := by
  rcases s.reserved_cases with ⟨_, h⟩ | ⟨_, h⟩ <;> rw [h] <;> rfl
@[simp] theorem State.reserved_resetLine (s : State) : (s.reserved).resetLine = s.resetLine := by
  rcases s.reserved_cases with ⟨_, h⟩ | ⟨_, h⟩ <;> rw [h] <;> rfl
@[simp] theorem State.reserved_channel (s : State) : (s.reserved).channel = s.channel := by
  rcases s.reserved_cases with ⟨_, h⟩ | ⟨_, h⟩ <;> rw [h] <;> rfl
@[simp] theorem State.reserved_draws (s : State) : (s.reserved).draws = s.draws := by
  rcases s.reserved_cases with ⟨_, h⟩ | ⟨_, h⟩ <;> rw [h] <;> rfl
@[simp] theorem State.reserved_result (s : State) : (s.reserved).result = s.result := by
  rcases s.reserved_cases with ⟨_, h⟩ | ⟨_, h⟩ <;> rw [h] <;> rfl

theorem State.acceptEnabled_iff {s : State} :
    s.acceptEnabled = true ↔ s.busy = false ∧ s.fault = .ok ∧ s.loaded = true := by
  simp [State.acceptEnabled, State.faulted, and_assoc]

theorem State.slotEnabled_iff {s : State} {r : Fin 10} {slot : Fin 8} :
    s.slotEnabled r slot = true ↔ s.busy = true ∧ s.q.val = 8 * r.val + slot.val := by
  simp [State.slotEnabled]

theorem State.ffwdEnabled_iff {s : State} : s.ffwdEnabled = true ↔ s.busy = true ∧ s.q.val = 80 := by
  simp [State.ffwdEnabled]

end Sys2Proof.Machine
end

