-- ==== Sys2Proof/Laws/Operands.lean ====
section
/-! SUPPORT. The bits of the operand and result conversions (R33, R44, R70, R109). -/

namespace Sys2Proof.Machine

/-- Bit `j` of a decoded word is bit `j mod 8` of byte `j div 8` (R70). -/
theorem le32_bits (b : Vector Byte 4) (j : Nat) (h : j < 32) :
    (le32 b).getLsbD j = (b[j/8]).getLsbD (j % 8) := by
  simp only [le32, BitVec.getLsbD_append]
  interval_cases j <;> simp

/-- Bit `j` of byte `k` of an encoded word is bit `8k + j` of the word (R109). -/
theorem le32enc_bits (v : Word) (k j : Nat) (hk : k < 4) (hj : j < 8) :
    ((le32enc v)[k]).getLsbD j = v.getLsbD (8 * k + j) := by
  have : k = 0 ∨ k = 1 ∨ k = 2 ∨ k = 3 := by omega
  rcases this with rfl | rfl | rfl | rfl <;> simp [le32enc, hj]

@[simp] theorem keyBusBytes_length (kb : BitVec 256) : (keyBusBytes kb).length = 32 := by simp [keyBusBytes]

@[simp] theorem nonceBusBytes_length (nb : BitVec 96) : (nonceBusBytes nb).length = 12 := by simp [nonceBusBytes]

@[simp] theorem keyBusBytes_get (kb : BitVec 256) (k : Nat) (hk : k < (keyBusBytes kb).length) :
    (keyBusBytes kb)[k] = kb.extractLsb' (8 * k) 8 := by simp [keyBusBytes]

@[simp] theorem nonceBusBytes_get (nb : BitVec 96) (k : Nat) (hk : k < (nonceBusBytes nb).length) :
    (nonceBusBytes nb)[k] = nb.extractLsb' (8 * k) 8 := by simp [nonceBusBytes]

/-- A word above the lowest of a concatenation. -/
theorem extract_above {n : Nat} (x : BitVec n) (y : Word) (k : Nat) :
    (x ++ y).extractLsb' (k + 32) 32 = x.extractLsb' k 32 := by
  apply BitVec.eq_of_getLsbD_eq
  intro j hj
  have h : ¬ (k + 32 + j < 32) := by omega
  have e : k + 32 + j - 32 = k + j := by omega
  simp only [BitVec.getLsbD_extractLsb', BitVec.getLsbD_append, h, if_false, e]

/-- The lowest word of a concatenation. -/
theorem extract_lowest {n : Nat} (x : BitVec n) (y : Word) : (x ++ y).extractLsb' 0 32 = y := by
  apply BitVec.eq_of_getLsbD_eq
  intro j hj
  simp only [BitVec.getLsbD_extractLsb', BitVec.getLsbD_append, Nat.zero_add, hj, decide_true, Bool.true_and, if_true]

end Sys2Proof.Machine
end

