-- ==== Sys2Proof/Laws/PerInstr.lean ====
section
/-! SUPPORT. The family `EncodeDecode`: the code of a well-formed operation decodes to it, one lemma per constructor. -/

namespace Sys2Proof.Laws.EncodeDecode

open Sys2Proof

/-- Decoding the code of a well-formed operation gives it back (R46, R54, R59). -/
def Statement (i : Instr) : Prop :=
  ∀ c : Code, i.wellFormed = true → encode i = some c → decode c = .ok i

theorem of_code {i : Instr} {c : Code} (he : encode i = some c) (h : decode c = .ok i) : Statement i := by
  intro c' _ hc
  rw [he] at hc
  exact Option.some.inj hc ▸ h

theorem of_none {i : Instr} (he : encode i = none) : Statement i := by
  intro c _ hc
  rw [he] at hc
  cases hc

theorem nop : Statement .nop := of_code rfl rfl
theorem init (key nonce : List Byte) (ctr : Word) : Statement (.init key nonce ctr) := of_code rfl rfl
theorem next : Statement .next := of_code rfl rfl
theorem rsvd : Statement .rsvd := of_code rfl rfl
theorem qrC0 (r : Fin 10) : Statement (.qrC0 r) := of_code rfl (decodeIndex_indexOf r 0)
theorem qrC1 (r : Fin 10) : Statement (.qrC1 r) := of_code rfl (decodeIndex_indexOf r 1)
theorem qrC2 (r : Fin 10) : Statement (.qrC2 r) := of_code rfl (decodeIndex_indexOf r 2)
theorem qrC3 (r : Fin 10) : Statement (.qrC3 r) := of_code rfl (decodeIndex_indexOf r 3)
theorem qrD0 (r : Fin 10) : Statement (.qrD0 r) := of_code rfl (decodeIndex_indexOf r 4)
theorem qrD1 (r : Fin 10) : Statement (.qrD1 r) := of_code rfl (decodeIndex_indexOf r 5)
theorem qrD2 (r : Fin 10) : Statement (.qrD2 r) := of_code rfl (decodeIndex_indexOf r 6)
theorem qrD3 (r : Fin 10) : Statement (.qrD3 r) := of_code rfl (decodeIndex_indexOf r 7)
theorem ffwd : Statement .ffwd := of_code rfl decodeIndex_ffwd
theorem acceptNext : Statement .acceptNext := of_none rfl
theorem reset : Statement .reset := of_code rfl rfl
theorem add32 (x y : Word) : Statement (.add32 x y) := of_none rfl
theorem xor32 (x y : Word) : Statement (.xor32 x y) := of_none rfl
theorem rotl32 (v : Word) (n : Fin 32) : Statement (.rotl32 v n) := of_none rfl
theorem le32 (b : List Byte) : Statement (.le32 b) := of_none rfl
theorem le32enc (v : Word) : Statement (.le32enc v) := of_none rfl
theorem qr (a b c d : Fin 16) : Statement (.qr a b c d) := of_none rfl
theorem colround : Statement .colround := of_none rfl
theorem diaground : Statement .diaground := of_none rfl
theorem dround : Statement .dround := of_none rfl
theorem copy : Statement .copy := of_none rfl
theorem feedfwd : Statement .feedfwd := of_none rfl
theorem block : Statement .block := of_none rfl
theorem ctrinc (c : Word) : Statement (.ctrinc c) := of_none rfl
theorem nextn (n : Nat) : Statement (.nextn n) := of_none rfl

end Sys2Proof.Laws.EncodeDecode
end

