-- ==== Sys2Proof/Laws/Step.lean ====
section
/-! SUPPORT. What a step does, said once: which operation it runs, in which state, and the inversion lemma that every
invariant follows from. -/

namespace Sys2Proof.Machine

/-! ### Which operation a step runs -/

theorem step_resetLine {s : State} (h : s.resetLine = true) : step s = exec .reset { s with resetLine := false } := by
  simp [step, State.fetch, State.take, h, decode, State.issue]

theorem step_idle {s : State} (hr : s.resetLine = false) (hb : s.busy = false) (hc : s.channel = []) :
    step s = .next s := by
  simp [step, State.fetch, State.take, hr, hb, hc]

theorem step_inlineReset {s : State} {rest : List Item} (hr : s.resetLine = false) (hb : s.busy = false)
    (hc : s.channel = .reset :: rest) : step s = exec .reset { s with channel := rest } := by
  simp [step, State.fetch, State.take, hr, hb, hc, decode, State.issue]

theorem step_request {s : State} {r : Request} {rest : List Item} (hr : s.resetLine = false) (hb : s.busy = false)
    (hc : s.channel = .request r :: rest) :
    step s = exec (({ s with channel := rest } : State).issue (decodeRequest r)) { s with channel := rest } := by
  simp [step, State.fetch, State.take, hr, hb, hc, decode]

theorem step_busy {s : State} {i : Instr} (hr : s.resetLine = false) (hb : s.busy = true)
    (hi : decodeIndex (BitVec.ofNat 7 s.q.val) = .ok i) : step s = exec i s := by
  have hn : s.issue i = i := by simp [State.issue, State.acceptEnabled, hb]
  simp [step, State.fetch, State.take, hr, hb, decode, indexCode, hi, hn]

/-! ### The micro-operations where they are enabled -/

theorem exec_microOp {s : State} {r : Fin 10} {slot : Fin 8} (hb : s.busy = true) (hq : s.q.val = 8 * r.val + slot.val) :
    exec (microOp r slot) s = .next (s.slotStep r slot) := by
  have he : s.slotEnabled r slot = true := State.slotEnabled_iff.2 ⟨hb, hq⟩
  fin_cases slot <;>
    (simp only [microOp, exec, execQrC0, execQrC1, execQrC2, execQrC3, execQrD0, execQrD1, execQrD2, execQrD3, qrStep]
     exact if_pos he)

theorem exec_ffwd {s : State} (hb : s.busy = true) (hq : s.q.val = 80) : exec .ffwd s = .next s.deliver := by
  simp [exec, execFfwd, State.ffwdEnabled_iff.2 ⟨hb, hq⟩]

theorem exec_acceptNext {s : State} (hb : s.busy = false) (hf : s.fault = .ok) (hl : s.loaded = true) :
    exec .acceptNext s = .next s.accept := by
  simp [exec, execAcceptNext, State.acceptEnabled_iff.2 ⟨hb, hf, hl⟩]

/-- At the micro-step level a NEXT that can run is accepted (R121). -/
theorem issue_accept {s : State} (hl : s.level = .microStep) (he : s.acceptEnabled = true) :
    s.issue .next = .acceptNext := if_pos ⟨rfl, hl, he⟩

/-! ### The step of each kind of request -/

/-- NOP (R86). -/
theorem step_nop {s : State} {r : Request} {rest : List Item} (hr : s.resetLine = false) (hb : s.busy = false)
    (hc : s.channel = .request r :: rest) (ho : r.op = 0) : step s = .next { s with channel := rest } := by
  have hi : decodeRequest r = .nop := by simp [decodeRequest, ho]
  rw [step_request hr hb hc, hi]; rfl

/-- INIT (R65). -/
theorem step_init {s : State} {r : Request} {rest : List Item} (hr : s.resetLine = false) (hb : s.busy = false)
    (hc : s.channel = .request r :: rest) (ho : r.op = 1) :
    step s = .next (({ s with channel := rest } : State).init r.key r.nonce r.ctr) := by
  have hi : decodeRequest r = .init r.key r.nonce r.ctr := by simp [decodeRequest, ho]
  rw [step_request hr hb hc, hi]; rfl

/-- The reserved code (R144). -/
theorem step_rsvd {s : State} {r : Request} {rest : List Item} (hr : s.resetLine = false) (hb : s.busy = false)
    (hc : s.channel = .request r :: rest) (ho : r.op = 3) :
    step s = .next ({ s with channel := rest } : State).reserved := by
  have hi : decodeRequest r = .rsvd := by simp [decodeRequest, ho]
  rw [step_request hr hb hc, hi]; rfl

/-- A NEXT that is one step (R80, R125). -/
theorem step_next {s : State} {r : Request} {rest : List Item} (hr : s.resetLine = false) (hb : s.busy = false)
    (hc : s.channel = .request r :: rest) (ho : r.op = 2)
    (hn : ¬ (s.level = .microStep ∧ s.fault = .ok ∧ s.loaded = true)) :
    step s = .next ({ s with channel := rest } : State).next := by
  have hi : decodeRequest r = .next := by simp [decodeRequest, ho]
  rw [step_request hr hb hc, hi]
  have : ({ s with channel := rest } : State).issue .next = .next := if_neg (by
    rw [State.acceptEnabled_iff]; rintro ⟨_, a, _, b, c⟩; exact hn ⟨a, b, c⟩)
  rw [this]; rfl

/-- A NEXT that is accepted (R121). -/
theorem step_accept {s : State} {r : Request} {rest : List Item} (hr : s.resetLine = false) (hb : s.busy = false)
    (hc : s.channel = .request r :: rest) (ho : r.op = 2) (hl : s.level = .microStep) (hf : s.fault = .ok)
    (hd : s.loaded = true) : step s = .next ({ s with channel := rest } : State).accept := by
  have hi : decodeRequest r = .next := by simp [decodeRequest, ho]
  have ha : State.acceptEnabled { s with channel := rest } = true := State.acceptEnabled_iff.2 ⟨hb, hf, hd⟩
  rw [step_request hr hb hc, hi, issue_accept (s := { s with channel := rest }) hl ha]
  exact exec_acceptNext hb hf hd

/-- A quarter round (R122). -/
theorem step_microOp {s : State} {r : Fin 10} {k : Fin 8} (hr : s.resetLine = false) (hb : s.busy = true)
    (hq : s.q.val = 8 * r.val + k.val) : step s = .next (s.slotStep r k) := by
  rcases decodeIndex_seqIndex s.q with ⟨hq', hi'⟩ | ⟨r', k', hq', hi'⟩
  · omega
  have : r' = r := Fin.ext (by omega)
  subst this
  have : k' = k := Fin.ext (by omega)
  subst this
  rw [step_busy hr hb hi', exec_microOp hb hq]

/-- The step that delivers the response (R124). -/
theorem step_deliver {s : State} (hr : s.resetLine = false) (hb : s.busy = true) (hq : s.q.val = 80) :
    step s = .next s.deliver := by
  rcases decodeIndex_seqIndex s.q with ⟨_, hi⟩ | ⟨r, k, hk, _⟩
  · rw [step_busy hr hb hi, exec_ffwd hb hq]
  · omega

/-! ### Everything a step can do -/

/-- The cases of a step (R120, R121, R122, R124, R125, R129). -/
inductive StepCase (s : State) : State → Prop
  | resetLine (h : s.resetLine = true) : StepCase s ({ s with resetLine := false } : State).clear
  | slot (h : s.resetLine = false) (hb : s.busy = true) (r : Fin 10) (k : Fin 8) (hq : s.q.val = 8 * r.val + k.val) :
      StepCase s (s.slotStep r k)
  | ffwd (h : s.resetLine = false) (hb : s.busy = true) (hq : s.q.val = 80) : StepCase s s.deliver
  | idle (h : s.resetLine = false) (hb : s.busy = false) (hc : s.channel = []) : StepCase s s
  | reset (h : s.resetLine = false) (hb : s.busy = false) (rest : List Item) (hc : s.channel = .reset :: rest) :
      StepCase s ({ s with channel := rest } : State).clear
  | nop (h : s.resetLine = false) (hb : s.busy = false) (r : Request) (rest : List Item)
      (hc : s.channel = .request r :: rest) (ho : r.op = 0) : StepCase s { s with channel := rest }
  | init (h : s.resetLine = false) (hb : s.busy = false) (r : Request) (rest : List Item)
      (hc : s.channel = .request r :: rest) (ho : r.op = 1) :
      StepCase s (({ s with channel := rest } : State).init r.key r.nonce r.ctr)
  | accept (h : s.resetLine = false) (hb : s.busy = false) (r : Request) (rest : List Item)
      (hc : s.channel = .request r :: rest) (ho : r.op = 2) (hl : s.level = .microStep) (hf : s.fault = .ok)
      (hd : s.loaded = true) : StepCase s ({ s with channel := rest } : State).accept
  | next (h : s.resetLine = false) (hb : s.busy = false) (r : Request) (rest : List Item)
      (hc : s.channel = .request r :: rest) (ho : r.op = 2)
      (hn : ¬ (s.level = .microStep ∧ s.fault = .ok ∧ s.loaded = true)) :
      StepCase s ({ s with channel := rest } : State).next
  | rsvd (h : s.resetLine = false) (hb : s.busy = false) (r : Request) (rest : List Item)
      (hc : s.channel = .request r :: rest) (ho : r.op = 3) : StepCase s ({ s with channel := rest } : State).reserved

/-- Every step is one of the cases, and none stops. -/
theorem step_case (s : State) : ∃ t : State, step s = .next t ∧ StepCase s t := by
  cases h : s.resetLine with
  | true => exact ⟨_, step_resetLine h, .resetLine h⟩
  | false =>
    cases hb : s.busy with
    | true =>
      rcases decodeIndex_seqIndex s.q with ⟨hq, _⟩ | ⟨r, k, hq, _⟩
      · exact ⟨_, step_deliver h hb hq, .ffwd h hb hq⟩
      · exact ⟨_, step_microOp h hb hq, .slot h hb r k hq⟩
    | false =>
      match hc : s.channel with
      | [] => exact ⟨_, step_idle h hb hc, .idle h hb hc⟩
      | .reset :: rest => exact ⟨_, step_inlineReset h hb hc, .reset h hb rest hc⟩
      | .request r :: rest =>
        rcases decodeRequest_cases r with ⟨ho, _⟩ | ⟨ho, _⟩ | ⟨ho, _⟩ | ⟨ho, _⟩
        · exact ⟨_, step_nop h hb hc ho, .nop h hb r rest hc ho⟩
        · exact ⟨_, step_init h hb hc ho, .init h hb r rest hc ho⟩
        · by_cases hn : s.level = .microStep ∧ s.fault = .ok ∧ s.loaded = true
          · exact ⟨_, step_accept h hb hc ho hn.1 hn.2.1 hn.2.2, .accept h hb r rest hc ho hn.1 hn.2.1 hn.2.2⟩
          · exact ⟨_, step_next h hb hc ho hn, .next h hb r rest hc ho hn⟩
        · exact ⟨_, step_rsvd h hb hc ho, .rsvd h hb r rest hc ho⟩

/-- The inversion lemma: what a step that answers a next state has done. -/
theorem step_cases {s t : State} (h : step s = .next t) : StepCase s t := by
  obtain ⟨t', h', hc⟩ := step_case s
  rw [h] at h'
  cases h'
  exact hc

/-! ### Runs -/

theorem run_succ {s t : State} {k : Nat} (h : step s = .next t) : runSteps (k + 1) s = runSteps k t := by
  simp only [runSteps, h]

theorem run_one {s t : State} (h : step s = .next t) : runSteps 1 s = .next t := run_succ h

theorem run_add {k l : Nat} {s t : State} (h : runSteps k s = .next t) : runSteps (k + l) s = runSteps l t := by
  induction k generalizing s with
  | zero => cases h; simp
  | succ k ih =>
    obtain ⟨u, hu, _⟩ := step_case s
    rw [run_succ hu] at h
    rw [Nat.succ_add, run_succ hu, ih h]

/-- The host's run of the machine is the same run. -/
theorem core_run_eq (k : Nat) (s : State) : Host.Core.run Sys2Proof.core k s = runSteps k s := by
  induction k generalizing s with
  | zero => rfl
  | succ k ih =>
    obtain ⟨u, hu, _⟩ := step_case s
    have hu' : Sys2Proof.core.step s = .next u := hu
    rw [run_succ hu, ← ih u]
    simp only [Host.Core.run, hu']

end Sys2Proof.Machine
end

