-- ==== Sys2Proof/Laws/Relations.lean ====
section
/-! SUPPORT. The operations keep the two relations of Safety.lean (states that differ only in words with no value, states
that differ only in data), and what an item of a program leaves alone. -/

namespace Sys2Proof.Machine

/-! ### States that differ only in words with no value (R25) -/

section SameValuesKept

variable {s t : State} (h : SameValues s t)
include h

theorem SameValues.stateWords (hl : s.loaded = true) : t.words = s.words := by
  obtain ⟨hk, hc, hn⟩ := h.words hl
  simp [State.words, hk, hc, hn]

theorem SameValues.withChannel (rest : List Item) :
    SameValues { s with channel := rest } { t with channel := rest } :=
  ⟨h.loaded, h.fault, h.busy, h.level, h.resetLine, rfl, h.responses, h.draws, h.result, h.words, h.engine⟩

theorem SameValues.respond (d : Option Block) : SameValues (s.respond d) (t.respond d) :=
  ⟨h.loaded, h.fault, h.busy, h.level, h.resetLine, h.channel, by simp [h.responses, h.fault], h.draws, h.result,
    h.words, h.engine⟩

theorem SameValues.raise (k : Status) : SameValues (s.raise k) (t.raise k) :=
  ⟨h.loaded, rfl, h.busy, h.level, h.resetLine, h.channel, by simp [h.responses], h.draws, h.result, h.words,
    h.engine⟩

theorem SameValues.load (k : Vector Byte 32) (n : Vector Byte 12) (c : Word) :
    SameValues (s.load k n c) (t.load k n c) :=
  ⟨rfl, h.fault, h.busy, h.level, h.resetLine, h.channel, by simp [h.responses, h.fault], h.draws, h.result,
    fun _ => ⟨rfl, rfl, rfl⟩, h.engine⟩

theorem SameValues.advance (hl : s.loaded = true) : SameValues s.advance t.advance := by
  obtain ⟨hk, hc, hn⟩ := h.words hl
  refine ⟨h.loaded, h.fault, h.busy, h.level, h.resetLine, h.channel, ?_, h.draws, h.result, ?_, ?_⟩
  · simp [h.responses, h.fault, h.stateWords hl]
  · exact fun _ => ⟨hk, congrArg ctrInc hc, hn⟩
  · exact fun hb => ⟨congrArg mixed (h.stateWords hl), (h.engine hb).2⟩

theorem SameValues.init (k n : List Byte) (c : Word) : SameValues (s.init k n c) (t.init k n c) := by
  unfold State.init State.unlessFaulted State.faulted
  rw [h.fault]
  split
  · exact h.respond _
  · split
    · exact h.raise _
    · split
      · exact h.raise _
      · exact h.load _ _ _

theorem SameValues.next : SameValues s.next t.next := by
  unfold State.next State.unlessFaulted State.faulted
  rw [h.fault, h.loaded]
  split
  · exact h.respond _
  · split
    · exact h.advance ‹_›
    · exact h.raise _

theorem SameValues.reserved : SameValues s.reserved t.reserved := by
  unfold State.reserved State.unlessFaulted State.faulted
  rw [h.fault]
  split
  · exact h.respond _
  · exact h.raise _

end SameValuesKept

/-! ### States that differ only in data (R19) -/

section SameControlKept

variable {s t : State} (h : SameControl s t)
include h

theorem SameControl.withChannel (rest : List Item) :
    SameControl { s with channel := rest } { t with channel := rest } :=
  ⟨h.loaded, h.fault, h.busy, h.q, h.level, h.resetLine, rfl, h.responses, h.draws⟩

theorem SameControl.respond (d e : Option Block) (hd : d.isSome = e.isSome) :
    SameControl (s.respond d) (t.respond e) :=
  ⟨h.loaded, h.fault, h.busy, h.q, h.level, h.resetLine, h.channel,
    by simp [h.responses, h.fault, Response.shape, hd], h.draws⟩

theorem SameControl.raise (k : Status) : SameControl (s.raise k) (t.raise k) :=
  ⟨h.loaded, rfl, h.busy, h.q, h.level, h.resetLine, h.channel, by simp [h.responses], h.draws⟩

theorem SameControl.load (k : Vector Byte 32) (n : Vector Byte 12) (c : Word) :
    SameControl (s.load k n c) (t.load k n c) :=
  ⟨rfl, h.fault, h.busy, h.q, h.level, h.resetLine, h.channel, by simp [h.responses, h.fault], h.draws⟩

theorem SameControl.advance : SameControl s.advance t.advance :=
  ⟨h.loaded, h.fault, h.busy, h.q, h.level, h.resetLine, h.channel,
    by simp [h.responses, h.fault, Response.shape], h.draws⟩

theorem SameControl.init (k n : List Byte) (c : Word) : SameControl (s.init k n c) (t.init k n c) := by
  unfold State.init State.unlessFaulted State.faulted
  rw [h.fault]
  split
  · exact h.respond _ _ rfl
  · split
    · exact h.raise _
    · split
      · exact h.raise _
      · exact h.load _ _ _

theorem SameControl.next : SameControl s.next t.next := by
  unfold State.next State.unlessFaulted State.faulted
  rw [h.fault, h.loaded]
  split
  · exact h.respond _ _ rfl
  · split
    · exact h.advance
    · exact h.raise _

theorem SameControl.reserved : SameControl s.reserved t.reserved := by
  unfold State.reserved State.unlessFaulted State.faulted
  rw [h.fault]
  split
  · exact h.respond _ _ rfl
  · exact h.raise _

end SameControlKept

/-! ### Items of a program -/

theorem State.itemEffect_frame (s : State) (x : Item) :
    (s.itemEffect x).level = s.level ∧ (s.itemEffect x).resetLine = s.resetLine ∧
    (s.busy = false → (s.itemEffect x).busy = false) ∧ (s.itemEffect x).channel = s.channel := by
  cases x with
  | reset => exact ⟨rfl, rfl, fun _ => rfl, rfl⟩
  | request r =>
    simp only [State.itemEffect]
    cases decodeRequest r <;> simp

/-- What an item does depends neither on what waits behind it nor on the sequencer index. -/
theorem State.itemEffect_withChannel_withIndex (s : State) (c : List Item) (a z : SeqIndex) (x : Item) :
    ({ ({ s with channel := c, q := a } : State).itemEffect x with q := z } : State) =
      { s.itemEffect x with channel := c, q := z } := by
  cases x with
  | reset => rfl
  | request r =>
    simp only [State.itemEffect]
    obtain ⟨_, _, _, loaded, fault, _, _, _, _, _, _, _, _, _⟩ := s
    cases decodeRequest r <;> try rfl
    · rename_i k n _
      simp only [State.init]
      cases exactBytes 32 k <;> cases exactBytes 12 n <;> cases fault <;> rfl
    all_goals cases fault <;> cases loaded <;> rfl

theorem State.itemEffect_withChannel (s : State) (c : List Item) (x : Item) :
    ({ s with channel := c } : State).itemEffect x = { s.itemEffect x with channel := c } := by
  refine (s.itemEffect_withChannel_withIndex c s.q (({ s with channel := c } : State).itemEffect x).q x).trans ?_
  cases x with
  | reset => rfl
  | request r =>
    simp only [State.itemEffect]
    cases decodeRequest r <;> simp

end Sys2Proof.Machine
end

