-- ==== Sys2Proof/Laws/Sequencer.lean ====
section
/-! SUPPORT. Runs of the sequencer: `n` micro-steps from a busy state, and a NEXT from its acceptance to its delivery. -/

namespace Sys2Proof.Machine

/-- The buffer after the quarter rounds of the indices `q` to `q + n - 1` (R122). -/
def slotRounds (w : Block) (q : Nat) : Nat → Block
  | 0 => w
  | n + 1 => slotRounds (slotRound w ⟨q % 8, Nat.mod_lt q (by decide)⟩) (q + 1) n

theorem slotRounds_add (w : Block) (q m n : Nat) :
    slotRounds w q (m + n) = slotRounds (slotRounds w q m) (q + m) n := by
  induction m generalizing w q with
  | zero => simp [slotRounds]
  | succ m ih =>
    rw [Nat.succ_add]
    simp only [slotRounds]
    rw [ih]
    congr 1
    omega

/-- Eight quarter rounds from an index that is a multiple of 8 are a double round (R92, R95). -/
theorem slotRounds_eight (w : Block) (r : Nat) : slotRounds w (8 * r) 8 = doubleRound w := by
  simp [slotRounds, doubleRound_slots, Nat.add_assoc]

theorem slotRounds_doubleRounds (w : Block) (n : Nat) : slotRounds w 0 (8 * n) = doubleRounds n w := by
  induction n with
  | zero => rfl
  | succ n ih =>
    rw [Nat.mul_succ, slotRounds_add, ih, Nat.zero_add, slotRounds_eight]
    rfl

/-- The 80 quarter rounds are the ten double rounds (R92). -/
theorem slotRounds_eighty (w : Block) : slotRounds w 0 80 = mixed w := slotRounds_doubleRounds w 10

/-- One micro-step while quarter rounds remain (R122). -/
theorem step_slot {s : State} (hr : s.resetLine = false) (hb : s.busy = true) (hq : s.q.val < 80) :
    step s = .next { s with
      w := slotRound s.w ⟨s.q.val % 8, Nat.mod_lt _ (by decide)⟩, q := ⟨s.q.val + 1, by omega⟩ } := by
  rcases decodeIndex_seqIndex s.q with ⟨h80, _⟩ | ⟨r, k, hk, hi⟩
  · omega
  · rw [step_busy hr hb hi, exec_microOp hb hk]
    have hs : (⟨s.q.val % 8, Nat.mod_lt _ (by decide)⟩ : Fin 8) = k := Fin.ext (by simp only []; omega)
    rw [hs]
    simp only [State.slotStep, hk]

/-- `n` micro-steps while quarter rounds remain. -/
theorem run_slots (n : Nat) {s : State} (hr : s.resetLine = false) (hb : s.busy = true) (hq : s.q.val + n ≤ 80) :
    runSteps n s =
      .next { s with w := slotRounds s.w s.q.val n, q := ⟨s.q.val + n, by omega⟩ } := by
  induction n generalizing s with
  | zero => rfl
  | succ n ih =>
    rw [run_succ (step_slot hr hb (by omega))]
    refine (ih ?_ ?_ ?_).trans ?_
    · exact hr
    · exact hb
    · simp only []
      omega
    · simp only [slotRounds, Nat.add_assoc, Nat.add_comm 1 n]

/-- From a busy state to the end of its NEXT (R124, R128). -/
theorem run_to_delivery {s : State} (hr : s.resetLine = false) (hb : s.busy = true) :
    runSteps (81 - s.q.val) s =
      .next ({ s with w := slotRounds s.w s.q.val (80 - s.q.val), q := ⟨80, by decide⟩ } : State).deliver := by
  have hq := s.q.isLt
  have e : 81 - s.q.val = (80 - s.q.val) + 1 := by omega
  have e80 : (⟨s.q.val + (80 - s.q.val), by omega⟩ : SeqIndex) = ⟨80, by decide⟩ := Fin.ext (by simp only []; omega)
  rw [e, run_add (run_slots _ hr hb (by omega)), e80]
  refine run_one (step_deliver ?_ ?_ ?_)
  · exact hr
  · exact hb
  · rfl

/-- A NEXT from its acceptance: 81 micro-steps later it has the effect of the transaction-level NEXT, `q` apart
(R127). -/
theorem run_accepted {s : State} (hr : s.resetLine = false) (hb : s.busy = false) (hf : s.fault = .ok) :
    runSteps 81 s.accept = .next { s.advance with q := ⟨80, by decide⟩ } := by
  have h := run_to_delivery (s := s.accept) hr rfl
  have hw : slotRounds s.accept.w 0 80 = mixed s.words := slotRounds_eighty s.words
  have e0 : s.accept.q.val = 0 := rfl
  rw [e0, Nat.sub_zero, Nat.sub_zero, hw] at h
  rw [h]
  simp [State.deliver, State.advance, State.respond, State.accept, State.words, blockTransform, hb, hf]

end Sys2Proof.Machine
end

