-- ==== Sys2Proof/Tests/Slice0.lean ====
section
/-! SUPPORT. The model's own tests. Expected values are the vectors of spec/95_test_vectors.md, named in each comment. Then,
for every statement with hypotheses, a state and operands that meet them, at the boundaries of each clause. -/

namespace Sys2Proof.Machine.Tests

/-! ### Small states -/

/-- Twelve zero state words at the transaction level: vector S6. -/
def zero : State where
  key       := #v[0, 0, 0, 0, 0, 0, 0, 0]
  ctr       := 0
  nonce     := #v[0, 0, 0]
  loaded    := true
  fault     := .ok
  busy      := false
  q         := 0
  w         := #v[0, 0, 0, 0, 0, 0, 0, 0, 0, 0, 0, 0, 0, 0, 0, 0]
  level     := .transaction
  resetLine := false
  channel   := []
  responses := []
  draws     := 1
  result    := .none

/-- The state words of vector S5. -/
def s5 : State :=
  { zero with
    key := #v[0x03020100, 0x07060504, 0x0b0a0908, 0x0f0e0d0c, 0x13121110, 0x17161514, 0x1b1a1918, 0x1f1e1d1c]
    ctr := 0x00000001
    nonce := #v[0x09000000, 0x4a000000, 0x00000000] }

/-- A state with the given working buffer. -/
def withBuffer (w : Block) : State := { zero with w := w }

/-- A state in the middle of a NEXT. -/
def running (q : SeqIndex) (w : Block) : State := { s5 with level := .microStep, busy := true, q := q, w := w }

/-- An empty block: nothing loaded. -/
def empty : State := { zero with loaded := false }

/-- A block with a recorded fault. -/
def faulted : State := { zero with fault := .illegalCommand }

/-- The next state an outcome answers, if it answers one. -/
def nextOf (o : Host.Outcome State Fault Refusal) : Option State :=
  match o with
  | .next s => some s
  | .fault _ => none
  | .refused _ => none

/-- The bytes 00, 01, 02, and so on. -/
def countUp (n : Nat) : List Byte := (List.range n).map (BitVec.ofNat 8)

/-- A request with operands of the given lengths. -/
def request (op : BitVec 2) (k n : Nat) : Request := ⟨op, List.replicate k 0, List.replicate n 0, 7⟩

/-- Items of a program: a valid INIT, a NEXT, and the RESET event. -/
def program : List Item := [.reset, .request (request 1 32 12), .request (request 2 0 0)]

/-- The state words of S5 (after COPY). -/
def s5Words : Block :=
  #v[0x61707865, 0x3320646e, 0x79622d32, 0x6b206574, 0x03020100, 0x07060504, 0x0b0a0908, 0x0f0e0d0c,
     0x13121110, 0x17161514, 0x1b1a1918, 0x1f1e1d1c, 0x00000001, 0x09000000, 0x4a000000, 0x00000000]

/-- S5 after the 80 quarter rounds. -/
def s5Mixed : Block :=
  #v[0x837778ab, 0xe238d763, 0xa67ae21e, 0x5950bb2f, 0xc4f2d0c7, 0xfc62bb2f, 0x8fa018fc, 0x3f5ec7b7,
     0x335271c2, 0xf29489f3, 0xeabda8fc, 0x82e46ebd, 0xd19c12b4, 0xb04e16de, 0x9e83d0cb, 0x4e3c50a2]

/-- The output block of S5. -/
def s5Out : Block :=
  #v[0xe4e7f110, 0x15593bd1, 0x1fdd0f50, 0xc47120a3, 0xc7f4d1c7, 0x0368c033, 0x9aaa2204, 0x4e6cd4c3,
     0x466482d2, 0x09aa9f07, 0x05d7c214, 0xa2028bd9, 0xd19c12b5, 0xb94e16de, 0xe883d0cb, 0x4e3c50a2]

/-- S6, first block, after the rounds. -/
def s6Mixed : Block :=
  #v[0x4c704011, 0x5d1d8d32, 0x6c08300e, 0xbd9d20df, 0xb819d2bd, 0x1aed8da0, 0xccef36a8, 0xc70d778b,
     0x7c5941da, 0x8d485751, 0x3fe02477, 0x374ad8b8, 0xf4b8436a, 0x1ca11815, 0x69b687c3, 0x8665eeb2]

/-- The first output block of S6. -/
def s6Out : Block :=
  #v[0xade0b876, 0x903df1a0, 0xe56a5d40, 0x28bd8653, 0xb819d2bd, 0x1aed8da0, 0xccef36a8, 0xc70d778b,
     0x7c5941da, 0x8d485751, 0x3fe02477, 0x374ad8b8, 0xf4b8436a, 0x1ca11815, 0x69b687c3, 0x8665eeb2]

/-- The first output block of T-WRAP. -/
def wrapOut : Block :=
  #v[0x09cde4ac, 0x91d194e2, 0x05d24a2d, 0xd9956fd0, 0xcfbff2c2, 0x53873e45, 0x5b7628f1, 0x4d5f2162,
     0x2f4fc792, 0x646a6c62, 0x84120b0c, 0x81ec39d8, 0x816269f1, 0x683efcda, 0x70939345, 0x1d8bb523]

/-- The output block of T-BLK for counter 0. -/
def k1Out0 : Block :=
  #v[0xfd91dc8a, 0xf5f0f49f, 0x50ad0f1b, 0x37d615ff, 0xa2fd0ee4, 0xc752cc06, 0x0042a783, 0x82153c50,
     0x363398cd, 0xd5540a7d, 0x999e3c7d, 0xe60e498f, 0x1f4ca39c, 0xa739e9f9, 0x2dc58455, 0xd4350a69]

/-- T-DIAG: DIAGROUND of the S5 words. -/
def diagOut : Block :=
  #v[0xc0bf2761, 0x334f55ef, 0x7268fe63, 0xf1a5ce5c, 0x7be812e6, 0x4d18599b, 0x12e46e98, 0x1bb0f6a5,
     0xa3cfa5c8, 0x4f74b7cd, 0x6ed2994b, 0xc50120a4, 0x386bc55e, 0x567f1348, 0xd1ea7e97, 0xd64f17bd]

/-- The state words of T-INIT2. -/
def initWords : Block :=
  #v[0x61707865, 0x3320646e, 0x79622d32, 0x6b206574, 0xfcfdfeff, 0xf8f9fafb, 0xf4f5f6f7, 0xf0f1f2f3,
     0xecedeeef, 0xe8e9eaeb, 0xe4e5e6e7, 0xe0e1e2e3, 0x80000000, 0xefbeadde, 0x67452301, 0xefcdab89]

/-- T-SEQ1: the buffer after the step with q = 0. -/
def seq0 : Block :=
  #v[0xabbaa25c, 0x3320646e, 0x79622d32, 0x6b206574, 0x3a465196, 0x07060504, 0x0b0a0908, 0x0f0e0d0c,
     0x6b3ca454, 0x17161514, 0x1b1a1918, 0x1f1e1d1c, 0xdec62ed2, 0x09000000, 0x4a000000, 0x00000000]

/-- T-SEQ1: the buffer after the step with q = 1. -/
def seq1 : Block :=
  #v[0xabbaa25c, 0x1efa51ea, 0x79622d32, 0x6b206574, 0x3a465196, 0x1c7e64f6, 0x0b0a0908, 0x0f0e0d0c,
     0x6b3ca454, 0x08eb14b1, 0x1b1a1918, 0x1f1e1d1c, 0xdec62ed2, 0x8862cc77, 0x4a000000, 0x00000000]

/-- T-SEQ1: the buffer after the step with q = 2. -/
def seq2 : Block :=
  #v[0xabbaa25c, 0x1efa51ea, 0x7354fbdf, 0x6b206574, 0x3a465196, 0x1c7e64f6, 0xb12fb628, 0x0f0e0d0c,
     0x6b3ca454, 0x08eb14b1, 0xbf8a9ac9, 0x1f1e1d1c, 0xdec62ed2, 0x8862cc77, 0x6e35b345, 0x00000000]

/-- T-SEQ1: the buffer after the step with q = 3. -/
def seq3 : Block :=
  #v[0xabbaa25c, 0x1efa51ea, 0x7354fbdf, 0x83d2dc69, 0x3a465196, 0x1c7e64f6, 0xb12fb628, 0xf05b6976,
     0x6b3ca454, 0x08eb14b1, 0xbf8a9ac9, 0xe444df3b, 0xdec62ed2, 0x8862cc77, 0x6e35b345, 0x52a647f1]

/-- T-SEQ1: the buffer after the step with q = 4. -/
def seq4 : Block :=
  #v[0xcd52e917, 0x1efa51ea, 0x7354fbdf, 0x83d2dc69, 0x3a465196, 0x5c2e187a, 0xb12fb628, 0xf05b6976,
     0x6b3ca454, 0x08eb14b1, 0xf1a1bdf5, 0xe444df3b, 0xdec62ed2, 0x8862cc77, 0x6e35b345, 0xf173888d]

/-- T-SEQ1: the buffer after the step with q = 5. -/
def seq5 : Block :=
  #v[0xcd52e917, 0x85ab03b4, 0x7354fbdf, 0x83d2dc69, 0x3a465196, 0x5c2e187a, 0xc95eb461, 0xf05b6976,
     0x6b3ca454, 0x08eb14b1, 0xf1a1bdf5, 0x761246ca, 0x6b0d58a3, 0x8862cc77, 0x6e35b345, 0xf173888d]

/-- T-SEQ1: the buffer after the step with q = 6. -/
def seq6 : Block :=
  #v[0xcd52e917, 0x85ab03b4, 0xb3457395, 0x83d2dc69, 0x3a465196, 0x5c2e187a, 0xc95eb461, 0x316c801a,
     0x7bf7d740, 0x08eb14b1, 0xf1a1bdf5, 0x761246ca, 0x6b0d58a3, 0x6798471a, 0x6e35b345, 0xf173888d]

/-- T-SEQ1: the buffer after the step with q = 7. -/
def seq7 : Block :=
  #v[0xcd52e917, 0x85ab03b4, 0xb3457395, 0xf96de7dd, 0xc4b7cd22, 0x5c2e187a, 0xc95eb461, 0x316c801a,
     0x7bf7d740, 0x7eddd644, 0xf1a1bdf5, 0x761246ca, 0x6b0d58a3, 0x6798471a, 0xd737f167, 0xf173888d]

/-! ### Well-formedness -/

theorem test_wellFormed_accepts : Instr.wellFormed (.le32 [1, 2, 3, 4]) = true ∧ Instr.wellFormed (.qr 0 4 8 12) = true := by decide
theorem test_wellFormed_le32_three_bytes : Instr.wellFormed (.le32 [1, 2, 3]) = false := by decide
theorem test_wellFormed_qr_equal_positions : Instr.wellFormed (.qr 0 4 0 12) = false := by decide

/-! ### Decoding: words written out from R46 and R54 -/

theorem test_decode_commands :
    decodeRequest ⟨0b00, [], [], 0⟩ = .nop ∧ decodeRequest ⟨0b01, [1], [2], 3⟩ = .init [1] [2] 3 ∧
    decodeRequest ⟨0b10, [1, 2, 3, 4, 5], [], 0⟩ = .next ∧ decodeRequest ⟨0b11, [], [], 0⟩ = .rsvd := by decide
theorem test_decode_column_slots :
    decodeIndex 0b0000000 = .ok (.qrC0 0) ∧ decodeIndex 0b0001001 = .ok (.qrC1 1) ∧
    decodeIndex 0b0101010 = .ok (.qrC2 5) ∧ decodeIndex 0b1001011 = .ok (.qrC3 9) := by decide
theorem test_decode_diagonal_slots :
    decodeIndex 0b0000100 = .ok (.qrD0 0) ∧ decodeIndex 0b0010101 = .ok (.qrD1 2) ∧
    decodeIndex 0b0111110 = .ok (.qrD2 7) ∧ decodeIndex 0b1001111 = .ok (.qrD3 9) := by decide
theorem test_decode_ffwd_and_beyond :
    decodeIndex 0b1010000 = .ok .ffwd ∧ decodeIndex 0b1010001 = .error .indexOutOfRange ∧
    decodeIndex 0b1011000 = .error .indexOutOfRange ∧ decodeIndex 0b1111111 = .error .indexOutOfRange := by decide
theorem test_decode_reset : decode .resetEvent = .ok .reset := by decide
theorem test_table_words :
    decodeTableWord 2 0b01 = some (.init (List.replicate 32 0) (List.replicate 12 0) 0) ∧
    decodeTableWord 8 0b10 = some .next ∧ decodeTableWord 7 0b0000000 = some (.qrC0 0) ∧
    decodeTableWord 8 0b1010000 = some .ffwd ∧ decodeTableWord 8 0b1010001 = none := by decide

/-! ### The primitives -/

/-- T-ADD1, T-ADD6. -/
theorem test_add32 :
    exec (.add32 0x11111111 0x01020304) zero = .next { zero with result := .word 0x12131415 } ∧
    exec (.add32 0xffffffff 0xffffffff) zero = .next { zero with result := .word 0xfffffffe } := by
  constructor <;> rfl
/-- T-XOR1, T-XOR2. -/
theorem test_xor32 :
    exec (.xor32 0x01234567 0x12131415) zero = .next { zero with result := .word 0x13305172 } ∧
    exec (.xor32 0xffffffff 0x0f0f0f0f) zero = .next { zero with result := .word 0xf0f0f0f0 } := by
  constructor <;> rfl
/-- T-ROT1 by 7, T-ROT2 by 16. -/
theorem test_rotl32 :
    exec (.rotl32 0x12345678 7) zero = .next { zero with result := .word 0x1a2b3c09 } ∧
    exec (.rotl32 0x80000001 16) zero = .next { zero with result := .word 0x00018000 } := by
  constructor <;> rfl
/-- T-ROT6: amount 0 is the identity. -/
theorem test_rotl32_zero : exec (.rotl32 0x80000001 0) zero = .next { zero with result := .word 0x80000001 } := rfl
/-- T-LE3. -/
theorem test_le32 : exec (.le32 [0xff, 0xfe, 0xfd, 0xfc]) zero = .next { zero with result := .word 0xfcfdfeff } := rfl
/-- T-LE6. -/
theorem test_le32_wrong_lengths :
    exec (.le32 [1, 2, 3]) zero = .fault (.invalidWordLength 3) ∧
    exec (.le32 [1, 2, 3, 4, 5]) zero = .fault (.invalidWordLength 5) := ⟨rfl, rfl⟩
/-- T-ENC1. -/
theorem test_le32enc :
    exec (.le32enc 0xe4e7f110) zero = .next { zero with result := .bytes [0x10, 0xf1, 0xe7, 0xe4] } := rfl
/-- T-CTR2. -/
theorem test_ctrinc : exec (.ctrinc 0xffffffff) zero = .next { zero with result := .word 0 } := rfl

/-! ### The block transform -/

/-- T-QR2, on a column; the other twelve words stay. -/
theorem test_qr_column :
    nextOf (exec (.qr 0 4 8 12)
      (withBuffer #v[0x11111111, 1, 2, 3, 0x01020304, 5, 6, 7, 0x9b8d6f43, 9, 10, 11, 0x01234567, 13, 14, 15])) =
    some (withBuffer
      #v[0xea2a92f4, 1, 2, 3, 0xcb1cf8ce, 5, 6, 7, 0x4581472e, 9, 10, 11, 0x5881c4bb, 13, 14, 15]) := by decide
/-- T-QR9, on a diagonal. -/
theorem test_qr_diagonal :
    nextOf (exec (.qr 3 4 9 14)
      (withBuffer #v[0, 0, 0, 0x516461b1, 0x2a5f714c, 0, 0, 0, 0, 0x53372767, 0, 0, 0, 0, 0x3d631689, 0])) =
    some (withBuffer
      #v[0, 0, 0, 0xbdb886dc, 0xcfacafd2, 0, 0, 0, 0, 0xe46bea80, 0, 0, 0, 0, 0xccc07c79, 0]) := by decide
/-- R91: the line "after COPY" of T-SEQ1. -/
theorem test_copy : nextOf (exec .copy s5) = some { s5 with w := s5Words } := by decide
/-- T-COL: the line q = 3 of T-SEQ1. -/
theorem test_colround : nextOf (exec .colround (withBuffer s5Words)) = some (withBuffer seq3) := by decide
/-- T-DIAG. -/
theorem test_diaground : nextOf (exec .diaground (withBuffer s5Words)) = some (withBuffer diagOut) := by decide
/-- T-DR: the line q = 7 of T-SEQ1. -/
theorem test_dround : nextOf (exec .dround (withBuffer s5Words)) = some (withBuffer seq7) := by decide
/-- S5, S8. -/
theorem test_feedfwd :
    nextOf (exec .feedfwd { s5 with w := s5Mixed }) = some { s5 with w := s5Mixed, result := .block s5Out } := by decide
/-- S5. -/
theorem test_block_s5 :
    nextOf (exec .block s5) = some { s5 with w := s5Mixed, result := .block s5Out } := by decide +kernel
/-- The example of R90. -/
theorem test_block_zero :
    nextOf (exec .block zero) = some { zero with w := s6Mixed, result := .block s6Out } := by decide +kernel

/-! ### The commands -/

/-- R86: NOP does nothing, a recorded fault or not. -/
theorem test_nop : exec .nop zero = .next zero ∧ exec .nop faulted = .next faulted := ⟨rfl, rfl⟩

/-- T-INIT2: bytes and a counter with the top bit set. -/
theorem test_init :
    (nextOf (exec (.init
      [0xff, 0xfe, 0xfd, 0xfc, 0xfb, 0xfa, 0xf9, 0xf8, 0xf7, 0xf6, 0xf5, 0xf4, 0xf3, 0xf2, 0xf1, 0xf0,
       0xef, 0xee, 0xed, 0xec, 0xeb, 0xea, 0xe9, 0xe8, 0xe7, 0xe6, 0xe5, 0xe4, 0xe3, 0xe2, 0xe1, 0xe0]
      [0xde, 0xad, 0xbe, 0xef, 0x01, 0x23, 0x45, 0x67, 0x89, 0xab, 0xcd, 0xef] 0x80000000) empty)).map
      (fun t => (t.words, t.loaded, t.fault, t.responses)) = some (initWords, true, .ok, [⟨.ok, none⟩]) := by decide

/-- T-F5 (key checked first) and T-F4: nothing is loaded. -/
theorem test_init_wrong_lengths :
    nextOf (exec (.init [] [] 1) empty) =
      some { empty with fault := .invalidKeyLength, responses := [⟨.invalidKeyLength, none⟩] } ∧
    nextOf (exec (.init (countUp 32) (countUp 13) 1) empty) =
      some { empty with fault := .invalidNonceLength, responses := [⟨.invalidNonceLength, none⟩] } := by decide
/-- T-WRAP: the block of counter 0xffffffff, and the counter wraps to 0. -/
theorem test_next_wraps :
    (nextOf (exec .next { zero with ctr := 0xffffffff })).map (fun t => (t.ctr, t.nonce, t.responses)) =
      some (0, zero.nonce, [⟨.ok, some wrapOut⟩]) := by decide +kernel
/-- T-G1. -/
theorem test_next_not_loaded :
    nextOf (exec .next empty) = some { empty with fault := .notLoaded, responses := [⟨.notLoaded, none⟩] } := by decide
/-- T-G3. -/
theorem test_rsvd :
    nextOf (exec .rsvd empty) =
      some { empty with fault := .illegalCommand, responses := [⟨.illegalCommand, none⟩] } := by decide
/-- T-G8: the recorded fault answers a NEXT. -/
theorem test_recorded_fault :
    nextOf (exec .next faulted) = some { faulted with responses := [⟨.illegalCommand, none⟩] } := by decide
/-- Program P4: NEXTN 2 from counter 0. -/
theorem test_nextn :
    (nextOf (exec (.nextn 2) { s5 with ctr := 0 })).map (fun t => (t.ctr, t.responses)) =
      some (2, [⟨.ok, some k1Out0⟩, ⟨.ok, some s5Out⟩]) := by decide +kernel

/-! ### The micro-steps: T-SEQ1 and S5 -/

theorem test_acceptNext :
    nextOf (exec .acceptNext { s5 with level := .microStep }) = some (running 0 s5Words) := by decide

theorem test_qrC0 :
    nextOf (exec (.qrC0 0) (running 0 s5Words)) = some (running 1 seq0) := by decide

theorem test_qrC1 :
    nextOf (exec (.qrC1 0) (running 1 seq0)) = some (running 2 seq1) := by decide

theorem test_qrC2 :
    nextOf (exec (.qrC2 0) (running 2 seq1)) = some (running 3 seq2) := by decide

theorem test_qrC3 :
    nextOf (exec (.qrC3 0) (running 3 seq2)) = some (running 4 seq3) := by decide

theorem test_qrD0 :
    nextOf (exec (.qrD0 0) (running 4 seq3)) = some (running 5 seq4) := by decide

theorem test_qrD1 :
    nextOf (exec (.qrD1 0) (running 5 seq4)) = some (running 6 seq5) := by decide

theorem test_qrD2 :
    nextOf (exec (.qrD2 0) (running 6 seq5)) = some (running 7 seq6) := by decide

theorem test_qrD3 :
    nextOf (exec (.qrD3 0) (running 7 seq6)) = some (running 8 seq7) := by decide

/-- The last quarter round leaves the index at 80 (R122), all-zero words all zero (R94). -/
theorem test_last_quarter_round :
    nextOf (exec (.qrD3 9) (running 79 zero.w)) = some (running 80 zero.w) := by decide
/-- S5: the block is delivered, the counter is 2, `w` and `q` stay. -/
theorem test_ffwd :
    nextOf (exec .ffwd (running 80 s5Mixed)) =
      some { running 80 s5Mixed with ctr := 2, busy := false, responses := [⟨.ok, some s5Out⟩] } := by decide
theorem test_microStep_refused :
    exec .ffwd (running 79 s5Mixed) = .refused (.notEnabled "FFWD") ∧
    exec (.qrC0 1) (running 0 s5Words) = .refused (.notEnabled "QR_C0") ∧
    exec (.qrC0 9) (running 80 s5Words) = .refused (.notEnabled "QR_C0") ∧
    exec .acceptNext empty = .refused (.notEnabled "ACCEPT-NEXT") := ⟨rfl, rfl, rfl, rfl⟩

/-! ### RESET and the step -/

/-- R160, R129: in the middle of a NEXT. -/
theorem test_reset :
    (nextOf (exec .reset (running 40 s5Words))).map (fun t => (t.loaded, t.fault, t.busy, t.responses)) =
      some (false, .ok, false, []) := by decide
/-- T-G6: RESET clears a recorded fault. -/
theorem test_reset_clears_fault : (nextOf (exec .reset faulted)).map (·.fault) = some .ok := by decide
/-- R59: RESET on its line is taken before the request. -/
theorem test_step_resetLine :
    (nextOf (step { faulted with resetLine := true, channel := [.request (request 2 0 0)] })).map
      (fun t => (t.fault, t.resetLine, t.channel.length)) = some (.ok, false, 1) := by decide
/-- R126: a request waits while a NEXT is in progress. -/
theorem test_step_holds :
    nextOf (step { running 0 s5Words with channel := [.request (request 3 0 0)] }) =
      some { running 1 seq0 with channel := [.request (request 3 0 0)] } := by decide
/-- R121 at the micro-step level, and R120: nothing to take. -/
theorem test_step_accepts :
    nextOf (step { s5 with level := .microStep, channel := [.request (request 2 5 0)] }) = some (running 0 s5Words) ∧
    nextOf (step zero) = some zero := by decide
theorem test_withFetchWord :
    (nextOf (step (State.reset.withFetchWord 8 0b11))).map (·.fault) = some .illegalCommand ∧
    (nextOf (step (State.reset.withFetchWord 8 0b01))).map (·.loaded) = some true ∧
    (nextOf (step (State.reset.withFetchWord 8 0b1010000))).map (·.busy) = some false := by decide

/-! ### Text (R56, R57, R58) and views -/

theorem test_parse :
    parseLine "INIT key=00 01 nonce=0a0B ctr=0x10".toList = some (.init [0, 1] [0x0a, 0x0b] 16) ∧
    parseLine "NEXTN 2".toList = some (.nextn 2) ∧ parseLine "RESET".toList = some .reset ∧
    parseLine "10".toList = some (.coded ⟨2, [], [], 0⟩) ∧
    parseLine "INIT key=00 nonce=00 ctr=4294967296".toList = none := by decide
theorem test_response_text :
    Response.text ⟨.invalidKeyLength, none⟩ = "-> FAULT InvalidKeyLength".toList ∧
    Response.text ⟨.ok, none⟩ = "-> OK".toList ∧
    (Response.text ⟨.ok, some s5Out⟩).take 23 = "-> OK e4e7f110 15593bd1".toList := by decide
/-- The bytes of S5's block: 10 f1 e7 e4 d1 first, 3c 50 a2 ... last (offset 63 is 4e). -/
theorem test_keystream_bytes :
    (keystreamBytes s5Out).take 5 = [0x10, 0xf1, 0xe7, 0xe4, 0xd1] ∧ keystreamByte s5Out 63 = 0x4e := by decide
/-- R44 with T-INIT2's first key bytes ff fe fd fc. -/
theorem test_pins : (requestOfPins 1 0xfcfdfeff 0 7).key.take 5 = [0xff, 0xfe, 0xfd, 0xfc, 0] := by decide

/-! ### Witnesses: states and operands that meet the hypotheses of each statement -/

/-- At amounts 0, 1 and 31. -/
theorem witness_Rotl32MovesBits :
    (0 : Fin 32).val = 0 ∧ 0 < (1 : Fin 32).val ∧ 0 < (31 : Fin 32).val := by decide
theorem witness_Le32FailsOnOtherLengths :
    (countUp 0).length ≠ 4 ∧ (countUp 3).length ≠ 4 ∧ (countUp 5).length ≠ 4 := by decide
theorem witness_QuarterRoundValues :
    distinctPositions 0 4 8 12 = true ∧ distinctPositions 15 14 13 12 = true ∧
    (1 : Fin 16) ≠ 0 ∧ (1 : Fin 16) ≠ 4 ∧ (1 : Fin 16) ≠ 8 ∧ (1 : Fin 16) ≠ 12 := by decide
/-- Each pair of positions made equal. -/
theorem witness_QrRefusesEqualPositions :
    distinctPositions 0 0 1 2 = false ∧ distinctPositions 0 1 0 2 = false ∧ distinctPositions 0 1 2 0 = false ∧
    distinctPositions 0 15 15 2 = false ∧ distinctPositions 0 15 2 15 = false ∧
    distinctPositions 0 1 15 15 = false := by decide
theorem witness_OrderInsideARoundIsFree :
    List.Perm ([3, 2, 1, 0] : List (Fin 8)) [0, 1, 2, 3] ∧ List.Perm ([5, 7, 4, 6] : List (Fin 8)) [4, 5, 6, 7] := by
  decide
theorem witness_InitLoadsGenerator :
    zero.fault = .ok ∧ (countUp 32).length = 32 ∧ (countUp 12).length = 12 := by decide
/-- Lengths 0, 31 and 33 for the key, 0, 11 and 13 for the nonce (S9), and both wrong. -/
theorem witness_InitRefusesWrongLengths :
    empty.fault = .ok ∧ (countUp 0).length ≠ 32 ∧ (countUp 31).length ≠ 32 ∧ (countUp 33).length ≠ 32 ∧
    ((countUp 32).length = 32 ∧ (countUp 0).length ≠ 12 ∧ (countUp 11).length ≠ 12 ∧ (countUp 13).length ≠ 12) := by
  decide
/-- From two blocks with different old words. -/
theorem witness_InitForgetsOldGenerator :
    s5.words ≠ zero.words ∧ s5.fault = .ok ∧ zero.fault = .ok ∧ (countUp 32).length = 32 ∧ (countUp 12).length = 12 ∧
    (nextOf (exec (.init (countUp 32) (countUp 12) 1) s5)).isSome = true ∧
    (nextOf (exec (.init (countUp 32) (countUp 12) 1) zero)).isSome = true := by decide
theorem witness_NextReturnsBlock : s5.fault = .ok ∧ s5.loaded = true := by decide
theorem witness_CounterWrapsSilently :
    let s := { zero with ctr := 0xffffffff }
    s.fault = .ok ∧ s.loaded = true ∧ s.ctr = 0xffffffff := by decide
theorem witness_NextBeforeInitFaults : State.reset.fault = .ok ∧ State.reset.loaded = false := by decide
/-- Loaded or not. -/
theorem witness_ReservedCodeFaults :
    State.reset.fault = .ok ∧ State.reset.loaded = false ∧ zero.fault = .ok ∧ zero.loaded = true := by decide
theorem witness_RecordedFaultBlocksCommands : faulted.fault ≠ .ok := by decide
/-- Each of the three commands, with a status other than 0 and with status 0. -/
theorem witness_OnePriorityOneResponse :
    (Instr.next = .next ∧ empty.verdict .next = .notLoaded ∧ zero.verdict .next = .ok) ∧
    (Instr.rsvd = .rsvd ∧ empty.verdict .rsvd = .illegalCommand ∧ faulted.verdict .rsvd = .illegalCommand) ∧
    (empty.verdict (.init (countUp 31) [] 0) = .invalidKeyLength ∧
      empty.verdict (.init (countUp 32) (countUp 13) 0) = .invalidNonceLength ∧
      empty.verdict (.init (countUp 32) (countUp 12) 0) = .ok) := by decide
theorem witness_NextnYieldsSuccessiveBlocks : s5.fault = .ok ∧ s5.loaded = true := by decide
/-- Three apart, across the counter's wrap. -/
theorem witness_InstancesShareKeystream :
    let a := { s5 with ctr := 0xffffffff }
    let b := { s5 with ctr := 2 }
    a.fault = .ok ∧ b.fault = .ok ∧ a.loaded = true ∧ b.loaded = true ∧ b.key = a.key ∧ b.nonce = a.nonce ∧
    b.ctr = a.ctr + BitVec.ofNat 32 3 := by decide
theorem witness_AcceptNextStarts : s5.busy = false ∧ s5.fault = .ok ∧ s5.loaded = true := by decide
/-- Each slot, in the first and the last double round. -/
theorem witness_QrStepsAdvance :
    (running 0 s5Words).busy = true ∧
    ∀ k : Fin 8,
      (running ⟨k.val, by omega⟩ s5Words).q.val = 8 * (0 : Fin 10).val + k.val ∧
      (running ⟨72 + k.val, by omega⟩ s5Words).q.val = 8 * (9 : Fin 10).val + k.val ∧
      (⟨72 + k.val + 1, by omega⟩ : SeqIndex).val = (running ⟨72 + k.val, by omega⟩ s5Words).q.val + 1 := by decide
theorem witness_FfwdDelivers : (running 80 s5Mixed).busy = true ∧ (running 80 s5Mixed).q.val = 80 := by decide
/-- Each way not to be enabled; for the QR rows idle, and busy at the indices beside their own and at 80. -/
theorem witness_MicroStepsRefusedWhenNotEnabled :
    (running 0 s5Words).busy = true ∧ faulted.fault ≠ .ok ∧ empty.loaded = false ∧ zero.busy = false ∧
    (running 79 s5Words).q.val ≠ 80 ∧
    (running 1 s5Words).q.val ≠ 8 * (0 : Fin 10).val ∧ (running 78 s5Words).q.val ≠ 8 * (9 : Fin 10).val + 7 ∧
    ∀ (r : Fin 10) (k : Fin 8), (running 80 s5Words).q.val ≠ 8 * r.val + k.val := by decide
theorem witness_EightyTwoMicroStepsAreOneNext :
    let s := { s5 with level := .microStep, channel := [.request (request 2 5 0), .reset] }
    s.busy = false ∧ s.fault = .ok ∧ s.loaded = true ∧ s.resetLine = false ∧ s.level = .microStep ∧
    s.channel = .request (request 2 5 0) :: [.reset] ∧ (request 2 5 0).op = 2 := by decide
/-- At the first and at the last index, with the number of steps before the delivery at its bounds. -/
theorem witness_NextInProgressCompletes :
    (running 0 s5Words).busy = true ∧ (running 0 s5Words).resetLine = false ∧ 80 < 81 - (running 0 s5Words).q.val ∧
    (running 80 s5Mixed).busy = true ∧ (running 80 s5Mixed).resetLine = false ∧
    0 < 81 - (running 80 s5Mixed).q.val := by decide
theorem witness_ResetLineBeatsEverything :
    ({ running 40 s5Words with resetLine := true, channel := program }).resetLine = true := by decide
/-- The fields of 0 and of 79, then 80, 81 and 127. -/
theorem witness_IndexDecodesByBits :
    ((0 : BitVec 7).extractLsb 6 3 = BitVec.ofNat 4 (0 : Fin 10).val ∧
      (0 : BitVec 7).extractLsb 2 0 = BitVec.ofNat 3 (0 : Fin 8).val) ∧
    ((79 : BitVec 7).extractLsb 6 3 = BitVec.ofNat 4 (9 : Fin 10).val ∧
      (79 : BitVec 7).extractLsb 2 0 = BitVec.ofNat 3 (7 : Fin 8).val) ∧
    (80 : BitVec 7).toNat = 80 ∧ 80 < (81 : BitVec 7).toNat ∧ 80 < (127 : BitVec 7).toNat := by decide
/-- A request with operands, the first and the last quarter round, FFWD and RESET. -/
theorem witness_DecodeOfEncode :
    (Instr.wellFormed (.init [1] [2] 3) = true ∧ encode (.init [1] [2] 3) = some (.request ⟨1, [1], [2], 3⟩)) ∧
    (Instr.wellFormed (.qrC0 0) = true ∧ encode (.qrC0 0) = some (.index 0)) ∧
    (Instr.wellFormed (.qrD3 9) = true ∧ encode (.qrD3 9) = some (.index 79)) ∧
    (Instr.wellFormed .ffwd = true ∧ encode .ffwd = some (.index 80)) ∧
    (Instr.wellFormed .reset = true ∧ encode .reset = some .resetEvent) := by decide
theorem witness_EncodeOfDecode :
    decodeIndex 0 = .ok (.qrC0 0) ∧ decodeIndex 80 = .ok .ffwd ∧ (request 1 5 3).op = 1 := by decide
theorem witness_IgnoredFieldsAreIgnored :
    (0 : BitVec 2) ≠ 1 ∧ (2 : BitVec 2) ≠ 1 ∧ (3 : BitVec 2) ≠ 1 ∧ zero.busy = false ∧ zero.resetLine = false := by
  decide
/-- Busy at 0 and 80; idle with nothing, a RESET, and a NEXT that is accepted or not. -/
theorem witness_StepRunsDecodedOperation :
    ((running 0 s5Words).resetLine = false ∧ (running 0 s5Words).busy = true ∧
      decodeIndex (BitVec.ofNat 7 (running 0 s5Words).q.val) = .ok (.qrC0 0)) ∧
    ((running 80 s5Words).resetLine = false ∧ (running 80 s5Words).busy = true ∧
      decodeIndex (BitVec.ofNat 7 (running 80 s5Words).q.val) = .ok .ffwd) ∧
    (zero.resetLine = false ∧ zero.busy = false ∧ zero.channel = []) ∧
    ({ zero with channel := program }).channel = .reset :: program.tail ∧
    (let s := { s5 with level := .microStep, channel := [.request (request 2 0 0)] };
      s.channel = .request (request 2 0 0) :: [] ∧ (request 2 0 0).op = 2 ∧ s.level = .microStep ∧ s.fault = .ok ∧
      s.loaded = true) ∧
    ({ empty with channel := [.request (request 2 0 0)] }).channel = .request (request 2 0 0) :: [] := by decide
/-- Idle and in the middle of a NEXT. -/
theorem witness_StepKeepsInv :
    zero.Inv ∧ step zero = .next zero ∧ (running 0 s5Words).Inv ∧
    step (running 0 s5Words) = .next (running 1 (slotRound s5Words 0)) :=
  ⟨nofun, rfl, fun _ => ⟨rfl, rfl, rfl⟩, rfl⟩
theorem witness_RequestsHeldWhileBusy :
    let s := { running 0 s5Words with channel := program }
    s.busy = true ∧ step s = .next { running 1 (slotRound s5Words 0) with channel := program } := ⟨rfl, rfl⟩
/-- A step without a response and one with. -/
theorem witness_ResponseStatusIsFaultField :
    (zero.Inv ∧ step zero = .next zero) ∧
    (let s := { empty with channel := [.request (request 2 0 0)] };
      s.Inv ∧ step s = .next { empty with fault := .notLoaded, responses := [⟨.notLoaded, none⟩] }) :=
  ⟨⟨nofun, rfl⟩, nofun, rfl⟩
/-- One step for each of the cases: nothing, a delivered block, RESET on its input and in line, INIT. -/
theorem witness_WordsChangeOnlyByTheRules :
    step zero = .next zero ∧ step (running 80 s5Mixed) = .next (running 80 s5Mixed).deliver ∧
    step { zero with resetLine := true } = .next zero.clear ∧
    step { zero with channel := [.reset] } = .next zero.clear ∧
    (nextOf (step { empty with channel := [.request (request 1 32 12)] })).isSome = true :=
  ⟨rfl, rfl, rfl, rfl, rfl⟩
/-- A fault that stays, and the two ways a RESET arrives. -/
theorem witness_FaultIsStickyUntilReset :
    faulted.fault ≠ .ok ∧ step faulted = .next faulted ∧
    step { faulted with resetLine := true } = .next faulted.clear ∧
    step { faulted with channel := [.reset] } = .next faulted.clear :=
  ⟨by decide, rfl, rfl, rfl⟩
/-- An empty block with two different sets of words that hold no value. -/
theorem witness_NoValueWordsAreNeverRead :
    empty.Inv ∧ SameValues empty { s5 with loaded := false, w := s5Words, q := 80 } ∧ step empty = .next empty ∧
    step { s5 with loaded := false, w := s5Words, q := 80 } =
      .next { s5 with loaded := false, w := s5Words, q := 80 } :=
  ⟨nofun, ⟨rfl, rfl, rfl, rfl, rfl, rfl, rfl, rfl, rfl, nofun, nofun⟩, rfl, rfl⟩
/-- Two blocks at the end of a NEXT with different data. -/
theorem witness_ControlIsDataIndependent :
    SameControl (running 80 s5Mixed) { running 80 zero.w with key := zero.key, ctr := 0xffffffff } ∧
    step (running 80 s5Mixed) = .next (running 80 s5Mixed).deliver ∧
    (nextOf (step { running 80 zero.w with key := zero.key, ctr := 0xffffffff })).isSome = true :=
  ⟨⟨rfl, rfl, rfl, rfl, rfl, rfl, rfl, rfl, rfl⟩, rfl, rfl⟩
theorem witness_TransactionRunIsInOrder :
    zero.level = .transaction ∧ zero.busy = false ∧ zero.resetLine = false ∧ program.length = 3 := by decide
theorem witness_MicroStepLevelRefinesTransactions :
    State.reset.level = .microStep ∧ State.reset.busy = false ∧ State.reset.resetLine = false := by decide
theorem witness_PinLayout : State.reset.fault = .ok := by decide

end Sys2Proof.Machine.Tests
end

/-! PROOFS of the family 10_state: the state after RESET, the layout of the state words, the invariant, what may change
key, counter and nonce, and what a step does not read. All follow from the inversion lemma `step_cases`. -/

namespace Sys2Proof.Machine

/-! ### The state after RESET and the hardwired words -/

/-- Settles O2: the constants are literals of `wordsOf`, the other words its arguments. -/
theorem stateWordsLayout : Obligations.StateWordsLayout := by
  intro s
  have h0 : le32 #v[0x65, 0x78, 0x70, 0x61] = 0x61707865 := by decide
  have h1 : le32 #v[0x6e, 0x64, 0x20, 0x33] = 0x3320646e := by decide
  have h2 : le32 #v[0x32, 0x2d, 0x62, 0x79] = 0x79622d32 := by decide
  have h3 : le32 #v[0x74, 0x65, 0x20, 0x6b] = 0x6b206574 := by decide
  rw [h0, h1, h2, h3]
  exact ⟨rfl, rfl, rfl, rfl, rfl, rfl, rfl, rfl, wordsOf_key _ _ _, wordsOf_ctr _ _ _, wordsOf_nonce _ _ _⟩

/-- Settles O1: the fields are those of `State.reset`, the constants those of every state. -/
theorem resetStateIsEmptyBlock : Obligations.ResetStateIsEmptyBlock := by
  obtain ⟨-, h0, -, h1, -, h2, -, h3, -⟩ := stateWordsLayout State.reset
  exact ⟨rfl, rfl, rfl, rfl, rfl, h0, h1, h2, h3⟩

/-! ### The invariant -/

theorem State.Inv.of_idle {s : State} (hb : s.busy = false) : s.Inv := fun h => by simp [hb] at h

/-- Settles O48: the block is idle after RESET. -/
theorem invHoldsAtReset : Obligations.InvHoldsAtReset := State.Inv.of_idle rfl

/-- Settles O49: only ACCEPT-NEXT makes the block busy, under the guard the invariant asks for, and a quarter round
touches none of the fields the invariant speaks of. -/
theorem stepKeepsInv : Obligations.StepKeepsInv := by
  intro s t hinv hstep
  cases step_cases hstep with
  | resetLine => exact .of_idle rfl
  | slot _ hb => exact fun _ => hinv hb
  | ffwd => exact .of_idle rfl
  | idle => exact hinv
  | reset => exact .of_idle rfl
  | nop _ hb => exact .of_idle hb
  | init _ hb => exact .of_idle (by simp [hb])
  | accept _ _ _ _ _ _ hl hf hd => exact fun _ => ⟨hd, hf, hl⟩
  | next _ hb => exact .of_idle (by simp [hb])
  | rsvd _ hb => exact .of_idle (by simp [hb])

/-! ### What changes key, counter and nonce -/

/-- INIT leaves the words alone, or it succeeds (R65, R66, R147). -/
theorem State.init_words (s : State) (key nonce : List Byte) (ctr : Word) :
    ((s.init key nonce ctr).key = s.key ∧ (s.init key nonce ctr).nonce = s.nonce ∧
      (s.init key nonce ctr).ctr = s.ctr) ∨
    (key.length = 32 ∧ nonce.length = 12 ∧ s.fault = .ok ∧ (s.init key nonce ctr).loaded = true ∧
      (s.init key nonce ctr).ctr = ctr ∧ (s.init key nonce ctr).responses = s.responses ++ [⟨.ok, none⟩]) := by
  rcases s.init_cases key nonce ctr with ⟨_, h⟩ | ⟨_, _, h⟩ | ⟨_, _, _, h⟩ | ⟨hf, hk, hn, h⟩ <;> rw [h]
  · exact .inl ⟨rfl, rfl, rfl⟩
  · exact .inl ⟨rfl, rfl, rfl⟩
  · exact .inl ⟨rfl, rfl, rfl⟩
  · exact .inr ⟨hk, hn, hf, rfl, rfl, by simp [hf]⟩

/-- NEXT leaves the counter alone, or it adds one and delivers a block (R80, R143, R147). -/
theorem State.next_words (s : State) :
    s.next.ctr = s.ctr ∨
    (s.next.ctr = s.ctr + 1 ∧ s.next.fault = s.fault ∧
      ∃ out : Block, s.next.responses = s.responses ++ [⟨.ok, some out⟩]) := by
  rcases s.next_cases with ⟨_, h⟩ | ⟨_, _, h⟩ | ⟨hf, _, h⟩ <;> rw [h]
  · exact .inl rfl
  · exact .inl rfl
  · exact .inr ⟨rfl, rfl, _, by rw [State.advance_responses, hf]⟩

/-- Settles O53: in the order of the statement's cases, the words stay, a block is delivered (FFWD, or a NEXT that runs
as one step), a RESET is taken, or an INIT succeeds. -/
theorem wordsChangeOnlyByTheRules : Obligations.WordsChangeOnlyByTheRules := by
  intro s t hstep
  cases step_cases hstep with
  | resetLine h => exact .inr (.inr (.inl ⟨.inl h, rfl, rfl, rfl⟩))
  | slot => exact .inl ⟨rfl, rfl, rfl⟩
  | ffwd => exact .inr (.inl ⟨rfl, rfl, rfl, rfl, _, rfl⟩)
  | idle => exact .inl ⟨rfl, rfl, rfl⟩
  | reset _ hb rest hc => exact .inr (.inr (.inl ⟨.inr ⟨hb, rest, hc⟩, rfl, rfl, rfl⟩))
  | nop => exact .inl ⟨rfl, rfl, rfl⟩
  | init _ hb r rest hc ho =>
    rcases ({ s with channel := rest } : State).init_words r.key r.nonce r.ctr with h | ⟨hk, hn, hf, hl, hctr, hresp⟩
    · exact .inl h
    · exact .inr (.inr (.inr ⟨r, rest, hc, ho, hk, hn, hf, hb, hl, hctr, rfl, hresp⟩))
  | accept => exact .inl ⟨rfl, rfl, rfl⟩
  | next _ _ _ rest =>
    rcases ({ s with channel := rest } : State).next_words with hctr | ⟨hctr, hfault, hresp⟩
    · exact .inl ⟨State.next_key _, State.next_nonce _, hctr⟩
    · exact .inr (.inl ⟨State.next_key _, State.next_nonce _, hctr, hfault, hresp⟩)
  | rsvd => exact .inl (by simp)

/-! ### States that agree on what a step tests run the same operation -/

/-- Two states agree on everything a step tests before it acts: the RESET line, the phase, the head of the channel, the
conditions of R121, and the index while busy (R19, R120). -/
structure SameTests (s t : State) : Prop where
  loaded    : t.loaded = s.loaded
  fault     : t.fault = s.fault
  busy      : t.busy = s.busy
  level     : t.level = s.level
  resetLine : t.resetLine = s.resetLine
  channel   : t.channel = s.channel
  index     : s.busy = true → t.q = s.q

/-- The operations a step applies, with the part of its guard that the relations below need. -/
inductive StepOp (s : State) : (State → State) → Prop
  | resetLine : StepOp s fun x => ({ x with resetLine := false } : State).clear
  | slot (hb : s.busy = true) (r : Fin 10) (k : Fin 8) : StepOp s fun x => x.slotStep r k
  | ffwd (hb : s.busy = true) : StepOp s State.deliver
  | idle : StepOp s id
  | reset (rest : List Item) : StepOp s fun x => ({ x with channel := rest } : State).clear
  | nop (rest : List Item) : StepOp s fun x => { x with channel := rest }
  | init (rest : List Item) (key nonce : List Byte) (ctr : Word) :
      StepOp s fun x => ({ x with channel := rest } : State).init key nonce ctr
  | accept (rest : List Item) (hd : s.loaded = true) : StepOp s fun x => ({ x with channel := rest } : State).accept
  | next (rest : List Item) : StepOp s fun x => ({ x with channel := rest } : State).next
  | rsvd (rest : List Item) : StepOp s fun x => ({ x with channel := rest } : State).reserved

/-- The operation a step of `s` applies is the one a step of `t` applies. -/
theorem SameTests.exists_stepOp {s t s' : State} (h : SameTests s t) (hs : step s = .next s') :
    ∃ f : State → State, StepOp s f ∧ s' = f s ∧ step t = .next (f t) := by
  have line {b : Bool} (e : s.resetLine = b) : t.resetLine = b := h.resetLine.trans e
  have phase {b : Bool} (e : s.busy = b) : t.busy = b := h.busy.trans e
  have head {c : List Item} (e : s.channel = c) : t.channel = c := h.channel.trans e
  cases step_cases hs with
  | resetLine hr => exact ⟨_, .resetLine, rfl, step_resetLine (line hr)⟩
  | slot hr hb r k hq =>
    exact ⟨_, .slot hb r k, rfl, step_microOp (line hr) (phase hb) (by rw [h.index hb, hq])⟩
  | ffwd hr hb hq => exact ⟨_, .ffwd hb, rfl, step_deliver (line hr) (phase hb) (by rw [h.index hb, hq])⟩
  | idle hr hb hc => exact ⟨_, .idle, rfl, step_idle (line hr) (phase hb) (head hc)⟩
  | reset hr hb rest hc => exact ⟨_, .reset rest, rfl, step_inlineReset (line hr) (phase hb) (head hc)⟩
  | nop hr hb r rest hc ho => exact ⟨_, .nop rest, rfl, step_nop (line hr) (phase hb) (head hc) ho⟩
  | init hr hb r rest hc ho =>
    exact ⟨_, .init rest r.key r.nonce r.ctr, rfl, step_init (line hr) (phase hb) (head hc) ho⟩
  | accept hr hb r rest hc ho hl hf hd =>
    exact ⟨_, .accept rest hd, rfl, step_accept (line hr) (phase hb) (head hc) ho (h.level.trans hl)
      (h.fault.trans hf) (h.loaded.trans hd)⟩
  | next hr hb r rest hc ho hn =>
    exact ⟨_, .next rest, rfl, step_next (line hr) (phase hb) (head hc) ho (by rwa [h.level, h.fault, h.loaded])⟩
  | rsvd hr hb r rest hc ho => exact ⟨_, .rsvd rest, rfl, step_rsvd (line hr) (phase hb) (head hc) ho⟩

/-- Two states that agree on what a step tests step by the same operation. -/
theorem SameTests.exists_common_stepOp {s t s' t' : State} (h : SameTests s t) (hs : step s = .next s')
    (ht : step t = .next t') : ∃ f : State → State, StepOp s f ∧ s' = f s ∧ t' = f t := by
  obtain ⟨f, hop, hs', hstep⟩ := h.exists_stepOp hs
  exact ⟨f, hop, hs', Host.Outcome.next.inj (ht.symm.trans hstep)⟩

/-! ### No step reads a word without a value -/

section SameValuesKept

variable {s t : State} (h : SameValues s t)
include h

theorem SameValues.tests : SameTests s t :=
  ⟨h.loaded, h.fault, h.busy, h.level, h.resetLine, h.channel, fun hb => (h.engine hb).2⟩

theorem SameValues.withResetLine (b : Bool) : SameValues { s with resetLine := b } { t with resetLine := b } :=
  ⟨h.loaded, h.fault, h.busy, h.level, rfl, h.channel, h.responses, h.draws, h.result, h.words, h.engine⟩

/-- RESET leaves no word with a value, so nothing of the two words before it is compared (R160). -/
theorem SameValues.clear : SameValues s.clear t.clear :=
  ⟨rfl, rfl, rfl, h.level, h.resetLine, h.channel, h.responses, congrArg (· + 1) h.draws, h.result, nofun, nofun⟩

theorem SameValues.accept (hl : s.loaded = true) : SameValues s.accept t.accept :=
  ⟨h.loaded, h.fault, rfl, h.level, h.resetLine, h.channel, h.responses, h.draws, h.result, h.words,
    fun _ => ⟨h.stateWords hl, rfl⟩⟩

theorem SameValues.slotStep (hb : s.busy = true) (r : Fin 10) (k : Fin 8) :
    SameValues (s.slotStep r k) (t.slotStep r k) :=
  ⟨h.loaded, h.fault, h.busy, h.level, h.resetLine, h.channel, h.responses, h.draws, h.result, h.words,
    fun _ => ⟨congrArg (slotRound · k) (h.engine hb).1, rfl⟩⟩

theorem SameValues.deliver (hb : s.busy = true) (hl : s.loaded = true) : SameValues s.deliver t.deliver := by
  obtain ⟨hk, hc, hn⟩ := h.words hl
  refine ⟨h.loaded, h.fault, rfl, h.level, h.resetLine, h.channel, ?_, h.draws, h.result, ?_, nofun⟩
  · simp [h.responses, h.stateWords hl, (h.engine hb).1]
  · exact fun _ => ⟨hk, congrArg ctrInc hc, hn⟩

end SameValuesKept

/-- Settles O55: the two steps apply one operation, and each operation keeps the relation. FFWD reads the state words in
a busy state; there the invariant says that they hold values. -/
theorem noValueWordsAreNeverRead : Obligations.NoValueWordsAreNeverRead := by
  intro s t s' t' hinv h hs ht
  obtain ⟨f, hop, rfl, rfl⟩ := h.tests.exists_common_stepOp hs ht
  cases hop with
  | resetLine => exact (h.withResetLine false).clear
  | slot hb r k => exact h.slotStep hb r k
  | ffwd hb => exact h.deliver hb (hinv hb).1
  | idle => exact h
  | reset rest => exact (h.withChannel rest).clear
  | nop rest => exact h.withChannel rest
  | init rest key nonce ctr => exact (h.withChannel rest).init key nonce ctr
  | accept rest hd => exact (h.withChannel rest).accept hd
  | next rest => exact (h.withChannel rest).next
  | rsvd rest => exact (h.withChannel rest).reserved

/-! ### Control does not depend on data -/

section SameControlKept

variable {s t : State} (h : SameControl s t)
include h

theorem SameControl.tests : SameTests s t :=
  ⟨h.loaded, h.fault, h.busy, h.level, h.resetLine, h.channel, fun _ => h.q⟩

theorem SameControl.withResetLine (b : Bool) : SameControl { s with resetLine := b } { t with resetLine := b } :=
  ⟨h.loaded, h.fault, h.busy, h.q, h.level, rfl, h.channel, h.responses, h.draws⟩

theorem SameControl.clear : SameControl s.clear t.clear :=
  ⟨rfl, rfl, rfl, congrArg Config.noValueIndex h.draws, h.level, h.resetLine, h.channel, h.responses,
    congrArg (· + 1) h.draws⟩

theorem SameControl.accept : SameControl s.accept t.accept :=
  ⟨h.loaded, h.fault, rfl, rfl, h.level, h.resetLine, h.channel, h.responses, h.draws⟩

theorem SameControl.slotStep (r : Fin 10) (k : Fin 8) : SameControl (s.slotStep r k) (t.slotStep r k) :=
  ⟨h.loaded, h.fault, h.busy, rfl, h.level, h.resetLine, h.channel, h.responses, h.draws⟩

theorem SameControl.deliver : SameControl s.deliver t.deliver :=
  ⟨h.loaded, h.fault, rfl, h.q, h.level, h.resetLine, h.channel, by simp [h.responses, Response.shape], h.draws⟩

end SameControlKept

/-- Settles O56: the two steps apply one operation, chosen without a look at data, and each operation keeps the
relation. -/
theorem controlIsDataIndependent : Obligations.ControlIsDataIndependent := by
  intro s t s' t' h hs ht
  obtain ⟨f, hop, rfl, rfl⟩ := h.tests.exists_common_stepOp hs ht
  cases hop with
  | resetLine => exact (h.withResetLine false).clear
  | slot _ r k => exact h.slotStep r k
  | ffwd => exact h.deliver
  | idle => exact h
  | reset rest => exact (h.withChannel rest).clear
  | nop rest => exact h.withChannel rest
  | init rest key nonce ctr => exact (h.withChannel rest).init key nonce ctr
  | accept rest => exact (h.withChannel rest).accept
  | next rest => exact (h.withChannel rest).next
  | rsvd rest => exact (h.withChannel rest).reserved

end Sys2Proof.Machine

/-! PROOFS of the family 20_memory: what INIT loads from byte sequences and from pins, the byte view of an output block
and its bus, and the order in which a run takes its items. -/

namespace Sys2Proof.Machine

/-! ### The words INIT loads -/

theorem fourBytes_get {n : Nat} (b : Vector Byte n) (k : Nat) (h : k + 4 ≤ n) (j : Nat) (hj : j < 4) :
    (fourBytes b k h)[j] = b[k + j] := by
  interval_cases j <;> rfl

theorem keyWords_get (key : Vector Byte 32) (i : Fin 8) :
    (keyWords key)[i] = le32 (fourBytes key (4 * i.val) (by omega)) := by
  fin_cases i <;> rfl

theorem nonceWords_get (nonce : Vector Byte 12) (i : Fin 3) :
    (nonceWords nonce)[i] = le32 (fourBytes nonce (4 * i.val) (by omega)) := by
  fin_cases i <;> rfl

theorem State.load_of_no_fault {s : State} (hf : s.fault = .ok) (k : Vector Byte 32) (n : Vector Byte 12) (c : Word) :
    s.load k n c =
      { s with key := keyWords k, ctr := c, nonce := nonceWords n, loaded := true,
               responses := s.responses ++ [⟨.ok, none⟩] } := by
  rw [State.load, State.respond, hf]

/-- INIT with the right lengths and no fault recorded (R65). -/
theorem exec_init_of_length {s : State} {key nonce : List Byte} (ctr : Word) (hf : s.fault = .ok)
    (hk : key.length = 32) (hn : nonce.length = 12) :
    exec (.init key nonce ctr) s =
      .next (s.load ⟨key.toArray, by simpa using hk⟩ ⟨nonce.toArray, by simpa using hn⟩ ctr) := by
  simp only [exec, execInit, State.init, State.unlessFaulted_ok hf, exactBytes_of_length hk, exactBytes_of_length hn]

/-- Settles O21: INIT is a load, and each word it loads is LE32 of four bytes. -/
theorem initLoadsGenerator : Obligations.InitLoadsGenerator := by
  intro s key nonce ctr hf hk hn
  have hinit := exec_init_of_length ctr hf hk hn
  rw [State.load_of_no_fault hf] at hinit
  refine ⟨_, _, hinit, fun i => ?_, fun i => ?_⟩
  · rw [keyWords_get, le32_toNat]; rfl
  · rw [nonceWords_get, le32_toNat]; rfl

/-! ### The byte view and the pins -/

/-- Settles O59: byte n is byte n mod 4 of an encoded word. -/
theorem keystreamByteView : Obligations.KeystreamByteView := fun _ n j =>
  le32enc_bits _ _ _ (Nat.mod_lt n.val (by decide)) j.isLt

/-- When byte k of `b` is in bits 8k+7 to 8k of a bus, LE32 of the four bytes from byte k is in the 32 bits from 8k on
(R44, R70). -/
theorem le32_fourBytes_of_bus {n m : Nat} {b : Vector Byte n} {bus : BitVec m}
    (hb : ∀ (k : Nat) (hk : k < n), b[k] = bus.extractLsb' (8 * k) 8) (k : Nat) (h : k + 4 ≤ n) :
    le32 (fourBytes b k h) = bus.extractLsb' (8 * k) 32 := by
  apply BitVec.eq_of_getLsbD_eq
  intro j hj
  have e : 8 * (k + j / 8) + j % 8 = 8 * k + j := by omega
  have hm : j % 8 < 8 := Nat.mod_lt j (by decide)
  rw [le32_bits _ j hj, fourBytes_get b k h (j / 8) (by omega), hb]
  simp only [BitVec.getLsbD_extractLsb', hj, hm, e]

/-- Word i of the output bus (R44). -/
theorem outBus_word (out : Block) (i : Fin 16) : (outBus out).extractLsb' (32 * i.val) 32 = out[i] := by
  fin_cases i <;> simp [outBus, extract_above, extract_lowest]

/-- Keystream byte n on the output bus (R33, R44): bit j of the byte is in the word n div 4 of the bus. -/
theorem keystreamByte_eq_outBus (out : Block) (n : Fin 64) :
    keystreamByte out n = (outBus out).extractLsb' (8 * n.val) 8 := by
  apply BitVec.eq_of_getLsbD_eq
  intro j hj
  have e : 32 * (n.val / 4) + (8 * (n.val % 4) + j) = 8 * n.val + j := by omega
  have h32 : 8 * (n.val % 4) + j < 32 := by omega
  have hword := outBus_word out ⟨n.val / 4, by omega⟩
  calc (keystreamByte out n).getLsbD j
      = (out[n.val / 4]'(by omega)).getLsbD (8 * (n.val % 4) + j) := keystreamByteView out n ⟨j, hj⟩
    _ = ((outBus out).extractLsb' (32 * (n.val / 4)) 32).getLsbD (8 * (n.val % 4) + j) := by rw [hword]; rfl
    _ = ((outBus out).extractLsb' (8 * n.val) 8).getLsbD j := by
      simp only [BitVec.getLsbD_extractLsb', h32, hj, e]

/-- Settles O60: the buses carry byte sequences of the right lengths, so INIT loads, and the words it loads are the
32-bit fields of the buses. -/
theorem pinLayout : Obligations.PinLayout := by
  refine ⟨fun op kb nb cb s hf => ?_, fun out => ⟨outBus_word out, keystreamByte_eq_outBus out⟩⟩
  have hinit := exec_init_of_length cb hf (keyBusBytes_length kb) (nonceBusBytes_length nb)
  refine ⟨rfl, _, hinit, hf, rfl, fun i => ?_, fun i => ?_⟩
  · rw [State.words, wordsOf_key, State.load_key, keyWords_get, le32_fourBytes_of_bus (bus := kb), ← Nat.mul_assoc]
    exact fun k hk => keyBusBytes_get kb k (by simpa using hk)
  · rw [State.words, wordsOf_nonce, State.load_nonce, nonceWords_get, le32_fourBytes_of_bus (bus := nb), ← Nat.mul_assoc]
    exact fun k hk => nonceBusBytes_get nb k (by simpa using hk)

/-! ### A run at the transaction level -/

/-- One step takes the item at the head of the channel and has its effect (R36, R39). -/
theorem step_item {s : State} (hl : s.level = .transaction) (hb : s.busy = false) (hr : s.resetLine = false)
    (x : Item) (rest : List Item) :
    step { s with channel := x :: rest } = .next { s.itemEffect x with channel := rest } := by
  rw [← State.itemEffect_withChannel]
  cases x with
  | reset => exact step_inlineReset hr hb rfl
  | request r =>
    rcases decodeRequest_cases r with ⟨ho, hi⟩ | ⟨ho, hi⟩ | ⟨ho, hi⟩ | ⟨ho, hi⟩ <;> rw [State.itemEffect, hi]
    · exact step_nop hr hb rfl ho
    · exact step_init hr hb rfl ho
    · exact step_next hr hb rfl ho (by simp [hl])
    · exact step_rsvd hr hb rfl ho

/-- Settles O57, by induction on the items: a step takes the first one and leaves a state from which the rest runs. -/
theorem transactionRunIsInOrder : Obligations.TransactionRunIsInOrder := by
  intro s items hl hb hr
  induction items generalizing s with
  | nil => exact ⟨_, rfl, rfl, rfl, hb, hr⟩
  | cons x rest ih =>
    obtain ⟨hlevel, hline, hbusy, -⟩ := s.itemEffect_frame x
    obtain ⟨t, hrun, ht, hdone⟩ := ih (s.itemEffect x) (hlevel.trans hl) (hbusy hb) (hline.trans hr)
    refine ⟨t, (run_succ (step_item hl hb hr x rest)).trans hrun, ?_, hdone⟩
    rw [ht, List.foldl_cons, State.itemEffect_withChannel s [] x]

end Sys2Proof.Machine

/-! PROOFS of the family 30_encoding: the decoders and the encoder, NEXTN, the RESET input, the fields a command ignores,
and what a response says. -/

namespace Sys2Proof

/-! ### Decode and encode -/

/-- Settles O44: the family `EncodeDecode` has one lemma per operation. -/
theorem decodeOfEncode : Obligations.DecodeOfEncode
  | .nop => Laws.EncodeDecode.nop
  | .init key nonce ctr => Laws.EncodeDecode.init key nonce ctr
  | .next => Laws.EncodeDecode.next
  | .rsvd => Laws.EncodeDecode.rsvd
  | .qrC0 r => Laws.EncodeDecode.qrC0 r
  | .qrC1 r => Laws.EncodeDecode.qrC1 r
  | .qrC2 r => Laws.EncodeDecode.qrC2 r
  | .qrC3 r => Laws.EncodeDecode.qrC3 r
  | .qrD0 r => Laws.EncodeDecode.qrD0 r
  | .qrD1 r => Laws.EncodeDecode.qrD1 r
  | .qrD2 r => Laws.EncodeDecode.qrD2 r
  | .qrD3 r => Laws.EncodeDecode.qrD3 r
  | .ffwd => Laws.EncodeDecode.ffwd
  | .acceptNext => Laws.EncodeDecode.acceptNext
  | .reset => Laws.EncodeDecode.reset
  | .add32 x y => Laws.EncodeDecode.add32 x y
  | .xor32 x y => Laws.EncodeDecode.xor32 x y
  | .rotl32 v n => Laws.EncodeDecode.rotl32 v n
  | .le32 b => Laws.EncodeDecode.le32 b
  | .le32enc v => Laws.EncodeDecode.le32enc v
  | .qr a b c d => Laws.EncodeDecode.qr a b c d
  | .colround => Laws.EncodeDecode.colround
  | .diaground => Laws.EncodeDecode.diaground
  | .dround => Laws.EncodeDecode.dround
  | .copy => Laws.EncodeDecode.copy
  | .feedfwd => Laws.EncodeDecode.feedfwd
  | .block => Laws.EncodeDecode.block
  | .ctrinc c => Laws.EncodeDecode.ctrinc c
  | .nextn n => Laws.EncodeDecode.nextn n

theorem indexOf_toNat (r : Fin 10) (slot : Fin 8) : (indexOf r slot).toNat = 8 * r.val + slot.val :=
  Nat.mod_eq_of_lt (by omega)

theorem encode_microOp (r : Fin 10) (slot : Fin 8) : encode (microOp r slot) = some (.index (indexOf r slot)) := by
  fin_cases slot <;> rfl

/-- The index with `q[6:3]` the double round and `q[2:0]` the slot (R54). -/
theorem eq_indexOf_of_fields {q : BitVec 7} {r : Fin 10} {slot : Fin 8}
    (hr : q.extractLsb 6 3 = BitVec.ofNat 4 r.val) (hslot : q.extractLsb 2 0 = BitVec.ofNat 3 slot.val) :
    q = indexOf r slot := by
  have hr : q.toNat / 8 % 16 = r.val % 16 := by
    simpa [BitVec.extractLsb_toNat, Nat.shiftRight_eq_div_pow] using congrArg BitVec.toNat hr
  have hslot : q.toNat % 8 = slot.val := by
    simpa [BitVec.extractLsb_toNat] using congrArg BitVec.toNat hslot
  apply BitVec.eq_of_toNat_eq
  rw [indexOf_toNat]
  omega

/-- The indices that decode, and what to (R20, R54). -/
theorem decodeIndex_eq_ok {q : BitVec 7} {i : Instr} (h : decodeIndex q = .ok i) :
    (q = 80 ∧ i = .ffwd) ∨ ∃ (r : Fin 10) (slot : Fin 8), q = indexOf r slot ∧ i = microOp r slot := by
  rcases Nat.lt_trichotomy q.toNat 80 with hlt | heq | hgt
  · rw [decodeIndex_of_le (Nat.le_of_lt_succ hlt)] at h
    refine .inr ⟨_, _, BitVec.eq_of_toNat_eq ?_, (Except.ok.inj h).symm⟩
    rw [indexOf_toNat]
    exact (Nat.div_add_mod q.toNat 8).symm
  · obtain rfl : q = 80 := BitVec.eq_of_toNat_eq heq
    exact .inl ⟨rfl, (Except.ok.inj h).symm⟩
  · rw [decodeIndex_of_gt hgt] at h
    cases h

/-- Settles O45: an index that decodes is FFWD's or a slot's; a request decodes to one of the four commands, of which
only INIT has operands. -/
theorem encodeOfDecode : Obligations.EncodeOfDecode := by
  constructor
  · intro q i h
    rcases decodeIndex_eq_ok h with ⟨rfl, rfl⟩ | ⟨r, slot, rfl, rfl⟩
    · rfl
    · exact encode_microOp r slot
  · intro r
    rcases decodeRequest_cases r with ⟨ho, hi⟩ | ⟨ho, hi⟩ | ⟨ho, hi⟩ | ⟨ho, hi⟩ <;> rw [hi, ho]
    · exact ⟨bareRequest 0, rfl, rfl, nofun⟩
    · exact ⟨⟨1, r.key, r.nonce, r.ctr⟩, rfl, rfl, fun _ => by rw [← ho]⟩
    · exact ⟨bareRequest 2, rfl, rfl, nofun⟩
    · exact ⟨bareRequest 3, rfl, rfl, nofun⟩

/-- Settles O42: the index words are the codes of their double round and slot. -/
theorem specWordsDecode : Obligations.SpecWordsDecode :=
  ⟨rfl, rfl, rfl, rfl, decodeIndex_indexOf 0 0, decodeIndex_indexOf 3 1, decodeIndex_indexOf 9 7, decodeIndex_ffwd,
    decodeIndex_of_gt (by decide), rfl⟩

/-- Settles O43: the two bit fields determine the index. -/
theorem indexDecodesByBits : Obligations.IndexDecodesByBits := by
  intro q
  refine ⟨fun r slot hr hslot => ?_, fun h => ?_, decodeIndex_of_gt⟩
  · rw [eq_indexOf_of_fields hr hslot, decodeIndex_indexOf]
    fin_cases slot <;> rfl
  · obtain rfl : q = 80 := BitVec.eq_of_toNat_eq h
    exact decodeIndex_ffwd

/-- A command other than INIT ignores the operand fields (R47, R49, R51). -/
theorem decodeRequest_of_op_ne_init {op : BitVec 2} (h : op ≠ 1) (k k' n n' : List Byte) (c c' : Word) :
    decodeRequest ⟨op, k, n, c⟩ = decodeRequest ⟨op, k', n', c'⟩ := by
  simp only [decodeRequest, h, if_false]

end Sys2Proof

namespace Sys2Proof.Machine

/-- Settles O46: a step looks at a request through the decoder only. -/
theorem ignoredFieldsAreIgnored : Obligations.IgnoredFieldsAreIgnored := by
  intro op k k' n n' c c' s rest hop hb hr
  have hstep (k n : List Byte) (c : Word) :=
    step_request (s := { s with channel := .request ⟨op, k, n, c⟩ :: rest }) hr hb rfl
  rw [hstep, hstep, decodeRequest_of_op_ne_init hop k k' n n' c c']

/-! ### RESET on its input -/

/-- Settles O41: the step is RESET, with the input taken. -/
theorem resetLineBeatsEverything : Obligations.ResetLineBeatsEverything := fun _ h =>
  ⟨step_resetLine h, _, step_resetLine h, rfl, rfl, rfl, rfl, rfl, rfl⟩

/-! ### NEXTN -/

/-- NEXT on a loaded, fault-free block delivers its block and adds one to the counter (R81, R84). -/
theorem State.next_delivers {s : State} (hf : s.fault = .ok) (hl : s.loaded = true) :
    s.next =
      { s with w := mixed s.words, ctr := s.ctr + 1,
               responses := s.responses ++ [⟨.ok, some (blockTransform s.words)⟩] } := by
  rw [State.next_of_loaded hf hl, State.advance, State.respond, hf]
  rfl

/-- Settles O30, by induction on the number of NEXT: after n of them the block is still loaded and without a fault, and
one more delivers the block of counter value c + n. -/
theorem nextnYieldsSuccessiveBlocks : Obligations.NextnYieldsSuccessiveBlocks := by
  intro s n hf hl
  induction n with
  | zero => exact ⟨s.w, by simp [exec, execNextn, State.nextTimes]⟩
  | succ n ih =>
    obtain ⟨w', hexec⟩ := ih
    have hn := Host.Outcome.next.inj hexec
    have hctr : s.ctr + BitVec.ofNat 32 n + 1 = s.ctr + BitVec.ofNat 32 (n + 1) := by
      rw [BitVec.add_assoc, BitVec.ofNat_add]
      rfl
    refine ⟨mixed (wordsOf s.key (s.ctr + BitVec.ofNat 32 n) s.nonce), congrArg Host.Outcome.next ?_⟩
    rw [State.nextTimes, hn, State.next_delivers, hctr]
    · simp [State.words, List.range_succ]
    · exact hf
    · exact hl

theorem State.next_responses_length (s : State) : s.next.responses.length = s.responses.length + 1 := by
  rcases s.next_cases with ⟨_, h⟩ | ⟨_, _, h⟩ | ⟨_, _, h⟩ <;> rw [h] <;> exact List.length_append

theorem State.nextTimes_responses_length (s : State) (n : Nat) :
    (s.nextTimes n).responses.length = s.responses.length + n := by
  induction n with
  | zero => rfl
  | succ n ih => rw [State.nextTimes, State.next_responses_length, ih, Nat.add_assoc]

/-- Settles O31: NEXT answers in every state, and NEXTN is defined by it. -/
theorem nextnIsRepeatedNext : Obligations.NextnIsRepeatedNext := fun s n =>
  ⟨rfl, _, _, rfl, s.nextTimes_responses_length n, rfl, rfl⟩

/-! ### What a response says -/

/-- From `s` to `t` one response is delivered, with the fault field as its status and data only with status 0 (R52). -/
def State.Answered (s t : State) : Prop :=
  ∃ r : Response, t.responses = s.responses ++ [r] ∧ r.status = t.fault ∧ (r.data ≠ none → r.status = .ok)

theorem State.answered_respond_none (s : State) : s.Answered (s.respond none) := ⟨_, rfl, rfl, fun h => absurd rfl h⟩

theorem State.answered_raise (s : State) (k : Status) : s.Answered (s.raise k) := ⟨_, rfl, rfl, fun h => absurd rfl h⟩

theorem State.answered_load (s : State) (k : Vector Byte 32) (n : Vector Byte 12) (c : Word) :
    s.Answered (s.load k n c) := ⟨_, rfl, rfl, fun h => absurd rfl h⟩

theorem State.answered_advance {s : State} (hf : s.fault = .ok) : s.Answered s.advance := ⟨_, rfl, rfl, fun _ => hf⟩

theorem State.answered_deliver {s : State} (hf : s.fault = .ok) : s.Answered s.deliver :=
  ⟨_, rfl, hf.symm, fun _ => rfl⟩

theorem State.answered_init (s : State) (key nonce : List Byte) (ctr : Word) : s.Answered (s.init key nonce ctr) := by
  rcases s.init_cases key nonce ctr with ⟨_, h⟩ | ⟨_, _, h⟩ | ⟨_, _, _, h⟩ | ⟨_, _, _, h⟩ <;> rw [h]
  · exact s.answered_respond_none
  · exact s.answered_raise _
  · exact s.answered_raise _
  · exact s.answered_load _ _ _

theorem State.answered_next (s : State) : s.Answered s.next := by
  rcases s.next_cases with ⟨_, h⟩ | ⟨_, _, h⟩ | ⟨hf, _, h⟩ <;> rw [h]
  · exact s.answered_respond_none
  · exact s.answered_raise _
  · exact State.answered_advance hf

theorem State.answered_reserved (s : State) : s.Answered s.reserved := by
  rcases s.reserved_cases with ⟨_, h⟩ | ⟨_, h⟩ <;> rw [h]
  · exact s.answered_respond_none
  · exact s.answered_raise _

/-- Settles O52: a step that answers is FFWD, where the invariant shuts out a recorded fault, or one of the three
commands that respond. -/
theorem responseStatusIsFaultField : Obligations.ResponseStatusIsFaultField := by
  intro s t hinv hstep
  cases step_cases hstep with
  | resetLine => exact .inl rfl
  | slot => exact .inl rfl
  | ffwd _ hb =>
    obtain ⟨-, hf, -⟩ := hinv hb
    exact .inr (State.answered_deliver hf)
  | idle => exact .inl rfl
  | reset => exact .inl rfl
  | nop => exact .inl rfl
  | init _ _ r rest => exact .inr (State.answered_init { s with channel := rest } r.key r.nonce r.ctr)
  | accept => exact .inl rfl
  | next _ _ _ rest => exact .inr (State.answered_next { s with channel := rest })
  | rsvd _ _ _ rest => exact .inr (State.answered_reserved { s with channel := rest })

end Sys2Proof.Machine

/-! PROOFS of the family 40_construction: LE32 on four bytes and on any other length, INIT with a wrong length, and what
a successful INIT forgets. -/

namespace Sys2Proof.Machine

/-! ### LE32 -/

/-- LE32 of four bytes (R70). -/
theorem exec_le32_of_length {b : List Byte} (s : State) (h : b.length = 4) :
    exec (.le32 b) s = .next { s with result := .word (le32 ⟨b.toArray, by simpa using h⟩) } := by
  simp only [exec, execLe32, exactBytes_of_length h]

/-- Settles O7: the word is LE32 of the four bytes, whose value is `le32_toNat`. -/
theorem le32DecodesLittleEndian : Obligations.Le32DecodesLittleEndian := fun b0 b1 b2 b3 s =>
  ⟨_, exec_le32_of_length (b := [b0, b1, b2, b3]) s rfl, le32_toNat #v[b0, b1, b2, b3]⟩

/-- Settles O8: a sequence of another length is not four bytes. -/
theorem le32FailsOnOtherLengths : Obligations.Le32FailsOnOtherLengths := by
  intro b s h
  simp only [exec, execLe32, exactBytes_eq_none h]

/-! ### INIT -/

/-- INIT with a key of the wrong length, whatever the nonce (R66, R141). -/
theorem State.init_of_key_length_ne {s : State} {key : List Byte} (nonce : List Byte) (ctr : Word)
    (hf : s.fault = .ok) (hk : key.length ≠ 32) : s.init key nonce ctr = s.raise .invalidKeyLength := by
  simp only [State.init, State.unlessFaulted_ok hf, exactBytes_eq_none hk]

/-- INIT with a key of the right length and a nonce of the wrong one (R66, R141). -/
theorem State.init_of_nonce_length_ne {s : State} {key nonce : List Byte} (ctr : Word) (hf : s.fault = .ok)
    (hk : key.length = 32) (hn : nonce.length ≠ 12) : s.init key nonce ctr = s.raise .invalidNonceLength := by
  simp only [State.init, State.unlessFaulted_ok hf, exactBytes_of_length hk, exactBytes_eq_none hn]

/-- Settles O22: each wrong length takes its fault, and taking a fault writes the fault and the response only. -/
theorem initRefusesWrongLengths : Obligations.InitRefusesWrongLengths := fun _ _ nonce ctr hf =>
  ⟨fun hk => congrArg Host.Outcome.next (State.init_of_key_length_ne nonce ctr hf hk),
    fun hk hn => congrArg Host.Outcome.next (State.init_of_nonce_length_ne ctr hf hk hn)⟩

/-- Settles O23: each of the two INITs is a load of the same words, which leaves `fault` alone. -/
theorem initForgetsOldGenerator : Obligations.InitForgetsOldGenerator := by
  intro s t s' t' key nonce ctr hs ht hk hn hs' ht'
  obtain rfl := Host.Outcome.next.inj ((exec_init_of_length ctr hs hk hn).symm.trans hs')
  obtain rfl := Host.Outcome.next.inj ((exec_init_of_length ctr ht hk hn).symm.trans ht')
  exact ⟨rfl, rfl, rfl, hs, ht⟩

end Sys2Proof.Machine

/-! PROOFS of the family 41_advance: CTRINC, NOP, what NEXT returns and how it advances the counter, when a NEXT in
progress ends, and that every state has a next one. -/

namespace Sys2Proof.Machine

/-! ### CTRINC and NOP -/

theorem ctrInc_toNat (c : Word) : (ctrInc c).toNat = (c.toNat + 1) % 2 ^ 32 := BitVec.toNat_add c 1

/-- Settles O10: the value shown is `ctrInc`, whose value is `ctrInc_toNat`. -/
theorem ctrincAddsOne : Obligations.CtrincAddsOne := fun c _ => ⟨ctrInc c, rfl, ctrInc_toNat c⟩

/-- Settles O20: the meaning of NOP is the state as it is. -/
theorem nopDoesNothing : Obligations.NopDoesNothing := fun _ => rfl

/-! ### NEXT -/

/-- The recursion of the model is iteration of the double round (R92). -/
theorem doubleRounds_eq_iterate (n : Nat) (w : Block) : doubleRounds n w = doubleRound^[n] w := by
  induction n with
  | zero => rfl
  | succ n ih => rw [doubleRounds, ih, Function.iterate_succ_apply']

/-- Executing NEXT on a loaded, fault-free block (R81, R84). -/
theorem exec_next_delivers {s : State} (hf : s.fault = .ok) (hl : s.loaded = true) :
    exec .next s =
      .next { s with w := mixed s.words, ctr := s.ctr + 1,
                     responses := s.responses ++ [⟨.ok, some (blockTransform s.words)⟩] } :=
  congrArg Host.Outcome.next (State.next_delivers hf hl)

/-- Settles O24: the block returned is the feed-forward of the state words before the increment. -/
theorem nextReturnsBlock : Obligations.NextReturnsBlock := fun s hf hl =>
  ⟨mixed s.words, blockTransform s.words, exec_next_delivers hf hl, doubleRounds_eq_iterate 10 s.words,
    feedForward_get (mixed s.words) s.words⟩

/-- Settles O25: NEXT adds one to the counter alone, and the addition wraps. -/
theorem counterWrapsSilently : Obligations.CounterWrapsSilently := by
  intro s hf hl hctr
  have hwrap : s.ctr + 1 = 0 := by rw [hctr]; decide
  exact ⟨_, exec_next_delivers hf hl, hwrap, hf, rfl, rfl, _, rfl, rfl⟩

/-! ### Progress -/

/-- Settles O38: the last of the 81 - q steps is FFWD; the steps before it are quarter rounds, which leave `busy` and the
responses alone. -/
theorem nextInProgressCompletes : Obligations.NextInProgressCompletes := by
  intro s hb hr
  refine ⟨_, _, run_to_delivery hr hb, rfl, rfl, rfl, rfl, fun k hk => ?_⟩
  have hslots : s.q.val + k ≤ 80 := by omega
  exact ⟨_, run_slots k hr hb hslots, hb, rfl⟩

/-- Settles O50: `step_case` names the next state of every state. -/
theorem everyStateSteps : Obligations.EveryStateSteps := fun s =>
  let ⟨t, hstep, _⟩ := step_case s
  ⟨t, hstep⟩

end Sys2Proof.Machine

/-! PROOFS of the family 42_block_transform: the quarter round, the order of the quarter rounds inside a round, the rounds,
the feed-forward and the whole block. -/

namespace Sys2Proof.Machine

/-! ### The quarter round -/

/-- QR on four distinct positions (R93). -/
theorem exec_qr_of_distinct {a b c d : Fin 16} (s : State) (h : distinctPositions a b c d = true) :
    exec (.qr a b c d) s = .next { s with w := quarterRound s.w a b c d } := by
  simp only [exec, execQr, h, if_true]

/-- Settles O11: the words are those of `quarterRound_values`, with `rotl32` read as the library's rotation. -/
theorem quarterRoundValues : Obligations.QuarterRoundValues := by
  intro a b c d s h
  have hvalues := quarterRound_values s.w h
  simp only [rotl32_eq_rotateLeft] at hvalues
  exact ⟨quarterRound s.w a b c d, exec_qr_of_distinct s h, hvalues⟩

/-- Settles O12: the guard of QR fails. -/
theorem qrRefusesEqualPositions : Obligations.QrRefusesEqualPositions := by
  intro a b c d s h
  simp only [exec, execQr, h, Bool.false_eq_true, if_false]

/-- Settles O13: a check of the table's eight rows, and `tuple_distinct`. -/
theorem tupleTable : Obligations.TupleTable := ⟨by decide, by decide, tuple_distinct⟩

/-! ### The rounds -/

/-- The four positions of a slot (R95). -/
def slotPositions (k : Fin 8) : List (Fin 16) :=
  [(tuple k).1, (tuple k).2.1, (tuple k).2.2.1, (tuple k).2.2.2]

/-- Two slots of one round, both columns or both diagonals, share no position (R95). -/
theorem slotPositions_disjoint :
    ∀ j k : Fin 8, j ≠ k → (j < 4 ↔ k < 4) → ∀ x ∈ slotPositions j, x ∉ slotPositions k := by
  decide

/-- Two quarter rounds of one round commute (R96, R97). -/
theorem slotRound_comm {j k : Fin 8} (hround : j < 4 ↔ k < 4) (w : Block) :
    slotRound (slotRound w j) k = slotRound (slotRound w k) j := by
  by_cases hjk : j = k
  · rw [hjk]
  · exact quarterRound_comm w (tuple_distinct j) (tuple_distinct k) (slotPositions_disjoint j k hjk hround)

/-- Slots of one round may be reordered. -/
theorem foldl_slotRound_perm {p l : List (Fin 8)} (hperm : p.Perm l) (hround : ∀ j ∈ l, ∀ k ∈ l, (j < 4 ↔ k < 4))
    (w : Block) : p.foldl slotRound w = l.foldl slotRound w :=
  (hperm.symm.foldl_eq' (fun j hj k hk => slotRound_comm (hround j hj k hk)) w).symm

/-- Settles O15: in slot order the quarter rounds are the round by definition, and the slots of a round may be
reordered. -/
theorem orderInsideARoundIsFree : Obligations.OrderInsideARoundIsFree := fun w _ =>
  ⟨fun hp => foldl_slotRound_perm hp (by decide) w, fun hp => foldl_slotRound_perm hp (by decide) w⟩

/-- Settles O14: each round is defined by the quarter rounds of its slots, whose tuples are those of the table. -/
theorem roundsAreQuarterRounds : Obligations.RoundsAreQuarterRounds := fun _ => ⟨rfl, rfl, rfl⟩

/-- The quarter rounds of consecutive indices as a fold over the indices (R122). -/
theorem slotRounds_eq_foldl (w : Block) (q n : Nat) :
    slotRounds w q n = (List.range' q n).foldl (fun w q => slotRound w ⟨q % 8, Nat.mod_lt q (by decide)⟩) w := by
  induction n generalizing w q with
  | zero => rfl
  | succ n ih => exact ih _ _

/-- Settles O19: the sequencer's 80 quarter rounds are the ten double rounds. -/
theorem mixingIsEightyQuarterRounds : Obligations.MixingIsEightyQuarterRounds := by
  intro w
  rw [← slotRounds_eighty, slotRounds_eq_foldl, List.range_eq_range']

/-! ### The block -/

/-- Settles O16: the buffer is the state's words themselves. -/
theorem copyCopiesState : Obligations.CopyCopiesState := fun s => ⟨s.words, rfl, fun _ => rfl⟩

/-- Settles O17: each word is a sum of two words, which is taken modulo 2^32. -/
theorem feedForwardAddsState : Obligations.FeedForwardAddsState := fun s =>
  ⟨feedForward s.w s.words, rfl, fun i => by rw [feedForward_get, BitVec.toNat_add]⟩

/-- Settles O18: BLOCK is the feed-forward of the mixed words, and mixing iterates the double round ten times. -/
theorem blockTransformsState : Obligations.BlockTransformsState := fun s =>
  ⟨mixed s.words, blockTransform s.words, rfl, doubleRounds_eq_iterate 10 s.words,
    feedForward_get (mixed s.words) s.words⟩

end Sys2Proof.Machine

/-! PROOFS of the family 43_primitives: addition, exclusive or and rotation of words, and LE32ENC with its inverse LE32. -/

namespace Sys2Proof.Machine

/-! ### Word operations -/

/-- Settles O4: the value shown is the sum of two words, which is taken modulo 2^32. -/
theorem add32IsModular : Obligations.Add32IsModular := fun x y _ => ⟨add32 x y, rfl, BitVec.toNat_add x y⟩

/-- A bit of XOR32 is set where the bits of the operands differ (R106). -/
theorem xor32_bit (x y : Word) (i : Fin 32) : (xor32 x y)[i] = true ↔ x[i] ≠ y[i] := by
  have hbit : (xor32 x y)[i] = (x[i] ^^ y[i]) := BitVec.getElem_xor i.isLt
  rw [hbit, bne_iff_ne]

/-- Settles O5: the value shown is `xor32`, whose bits are those of `xor32_bit`. -/
theorem xor32IsBitwise : Obligations.Xor32IsBitwise := fun x y _ => ⟨xor32 x y, rfl, xor32_bit x y⟩

/-- Rotation by 0 is the identity (R108). -/
theorem rotl32_zero (v : Word) : rotl32 v 0 = v := by
  apply BitVec.eq_of_getLsbD_eq
  intro i hi
  simpa [Nat.mod_eq_of_lt hi] using rotl32_bit v 0 ⟨i, hi⟩

/-- Settles O6: the value shown is `rotl32`, whose bits, value and case of amount 0 are lemmas of their own. -/
theorem rotl32MovesBits : Obligations.Rotl32MovesBits := fun v n _ =>
  ⟨rotl32 v n, rfl, rotl32_bit v n, rotl32_toNat v n, fun hn => by rw [Fin.ext hn (b := 0), rotl32_zero]⟩

/-! ### LE32ENC -/

/-- Decoding the bytes of a word gives the word: bit `j` goes through byte `j div 8` and back (R109). -/
theorem le32_le32enc (v : Word) : le32 (le32enc v) = v := by
  apply BitVec.eq_of_getLsbD_eq
  intro j hj
  rw [le32_bits _ j hj, le32enc_bits v (j / 8) (j % 8) (by omega) (by omega), Nat.div_add_mod]

/-- Encoding the word of four bytes gives the bytes: bit `j` of byte `k` goes through bit `8k + j` and back (R109). -/
theorem le32enc_le32 (b : Vector Byte 4) : le32enc (le32 b) = b := by
  apply Vector.ext
  intro k hk
  apply BitVec.eq_of_getLsbD_eq
  intro j hj
  have hbyte : (8 * k + j) / 8 = k := by omega
  have hbit : (8 * k + j) % 8 = j := by omega
  rw [le32enc_bits _ k j hk hj, le32_bits b (8 * k + j) (by omega)]
  simp only [hbyte, hbit]

/-- Settles O9: the bytes shown are those of `le32enc`, and the two inverse laws hold bit by bit. -/
theorem le32encIsInverseOfLe32 : Obligations.Le32encIsInverseOfLe32 :=
  ⟨fun _ _ => rfl, le32_le32enc, le32enc_le32⟩

end Sys2Proof.Machine

/-! PROOFS of the family 44_sequencer: the micro-steps where they are enabled and where they are not, the operation a step
runs, and the micro-step level as a refinement of the transaction level. -/

namespace Sys2Proof.Machine

/-! ### Runs at the micro-step level refine the transactions -/

/-- 82 micro-steps from a NEXT that can run at the head of the channel: its acceptance, 80 quarter rounds and its delivery
(R121, R127, R128). -/
theorem run_next {s : State} {r : Request} {rest : List Item} (hr : s.resetLine = false) (hb : s.busy = false)
    (hc : s.channel = .request r :: rest) (ho : r.op = 2) (hl : s.level = .microStep) (hf : s.fault = .ok)
    (hd : s.loaded = true) :
    runSteps 82 s = .next { ({ s with channel := rest } : State).next with q := ⟨80, by decide⟩ } := by
  rw [run_succ (step_accept hr hb hc ho hl hf hd), State.next_of_loaded (s := { s with channel := rest }) hf hd]
  exact run_accepted (s := { s with channel := rest }) hr hb hf

/-- Settles O37: the run is `run_next`, and the transaction-level NEXT leaves an idle block idle. -/
theorem eightyTwoMicroStepsAreOneNext : Obligations.EightyTwoMicroStepsAreOneNext := by
  intro s r rest hb hf hd hr hl hc ho
  exact ⟨_, _, rfl, run_next hr hb hc ho hl hf hd, rfl, (State.next_busy _).trans hb⟩

/-- At the micro-step level the item at the head of an idle block's channel is taken and has its transaction-level
effect, the index apart: in 82 steps if it is a NEXT that can run, in one step otherwise (R125, R127). -/
theorem run_item {s : State} (hl : s.level = .microStep) (hb : s.busy = false) (hr : s.resetLine = false)
    (x : Item) (rest : List Item) :
    ∃ (k : Nat) (z : SeqIndex), runSteps k { s with channel := x :: rest } =
      .next { ({ s with channel := rest } : State).itemEffect x with q := z } := by
  cases x with
  | reset => exact ⟨1, _, run_one (step_inlineReset hr hb rfl)⟩
  | request r =>
    rcases decodeRequest_cases r with ⟨ho, hi⟩ | ⟨ho, hi⟩ | ⟨ho, hi⟩ | ⟨ho, hi⟩ <;> rw [State.itemEffect, hi]
    · exact ⟨1, _, run_one (step_nop hr hb rfl ho)⟩
    · exact ⟨1, _, run_one (step_init hr hb rfl ho)⟩
    · by_cases hn : s.level = .microStep ∧ s.fault = .ok ∧ s.loaded = true
      · obtain ⟨-, hf, hd⟩ := hn
        exact ⟨82, _, run_next hr hb rfl ho hl hf hd⟩
      · exact ⟨1, _, run_one (step_next hr hb rfl ho hn)⟩
    · exact ⟨1, _, run_one (step_rsvd hr hb rfl ho)⟩

/-- At the micro-step level a run ends a program with the effects of its items in order, whatever the index was before
and is afterwards (R127). -/
theorem run_items (items : List Item) {s : State} (hl : s.level = .microStep) (hb : s.busy = false)
    (hr : s.resetLine = false) (a : SeqIndex) :
    ∃ (k : Nat) (z : SeqIndex), runSteps k { s with channel := items, q := a } =
      .next { items.foldl State.itemEffect { s with channel := [] } with q := z } := by
  induction items generalizing s a with
  | nil => exact ⟨0, a, rfl⟩
  | cons x rest ih =>
    obtain ⟨hlevel, hline, hbusy, -⟩ := s.itemEffect_frame x
    obtain ⟨k, b, hitem⟩ := run_item (s := { s with q := a }) hl hb hr x rest
    rw [s.itemEffect_withChannel_withIndex rest a b x] at hitem
    obtain ⟨m, z, hrest⟩ := ih (hlevel.trans hl) (hbusy hb) (hline.trans hr) b
    refine ⟨k + m, z, (run_add hitem).trans hrest |>.trans ?_⟩
    rw [List.foldl_cons, State.itemEffect_withChannel s [] x]

/-- The items of a program leave an idle block idle, its channel and its RESET line as they were. -/
theorem foldl_itemEffect_frame (items : List Item) {s : State} (hb : s.busy = false) :
    (items.foldl State.itemEffect s).channel = s.channel ∧ (items.foldl State.itemEffect s).busy = false ∧
    (items.foldl State.itemEffect s).resetLine = s.resetLine := by
  induction items generalizing s with
  | nil => exact ⟨rfl, hb, rfl⟩
  | cons x rest ih =>
    obtain ⟨-, hline, hbusy, hchannel⟩ := s.itemEffect_frame x
    obtain ⟨hc, hidle, hr⟩ := ih (hbusy hb)
    exact ⟨hc.trans hchannel, hidle, hr.trans hline⟩

/-- Settles O58: the run is `run_items`, and the effects of the items leave nothing waiting. -/
theorem microStepLevelRefinesTransactions : Obligations.MicroStepLevelRefinesTransactions := by
  intro s items hl hb hr
  obtain ⟨k, z, hrun⟩ := run_items items hl hb hr s.q
  obtain ⟨hchannel, hbusy, hline⟩ := foldl_itemEffect_frame items (s := { s with channel := [] }) hb
  exact ⟨k, _, hrun, rfl, hchannel, hbusy, hline.trans hr⟩

/-! ### The micro-steps -/

/-- Settles O33: where it is enabled ACCEPT-NEXT is `State.accept`. -/
theorem acceptNextStarts : Obligations.AcceptNextStarts := fun _ hb hf hl => exec_acceptNext hb hf hl

/-- A QR-STEP at its index, with the index after it named (R122). -/
theorem exec_microOp_advances {s : State} {r : Fin 10} {q' : SeqIndex} (hb : s.busy = true)
    (hq' : q'.val = s.q.val + 1) (slot : Fin 8) (hq : s.q.val = 8 * r.val + slot.val) :
    exec (microOp r slot) s = .next { s with w := slotRound s.w slot, q := q' } := by
  have hnext : (⟨8 * r.val + slot.val + 1, by omega⟩ : SeqIndex) = q' := Fin.ext (by rw [hq', hq])
  rw [exec_microOp hb hq, State.slotStep, hnext]

/-- Settles O34: the eight operations are those of the slots, and a slot's quarter round is that of its tuple. -/
theorem qrStepsAdvance : Obligations.QrStepsAdvance := fun _ r hb _ hq' =>
  have advances := exec_microOp_advances (r := r) hb hq'
  ⟨advances 0, advances 1, advances 2, advances 3, advances 4, advances 5, advances 6, advances 7⟩

/-- Settles O35: FFWD at its index is `State.deliver`, and the block is the feed-forward. -/
theorem ffwdDelivers : Obligations.FfwdDelivers := fun s hb hq =>
  ⟨feedForward s.w s.words, exec_ffwd hb hq, feedForward_get s.w s.words⟩

theorem exec_acceptNext_refused {s : State} (h : s.busy = true ∨ s.fault ≠ .ok ∨ s.loaded = false) :
    exec .acceptNext s = .refused (.notEnabled "ACCEPT-NEXT") := by
  refine if_neg fun he => ?_
  obtain ⟨hb, hf, hl⟩ := State.acceptEnabled_iff.1 he
  simp [hb, hf, hl] at h

theorem exec_ffwd_refused {s : State} (h : s.busy = false ∨ s.q.val ≠ 80) :
    exec .ffwd s = .refused (.notEnabled "FFWD") := by
  refine if_neg fun he => ?_
  obtain ⟨hb, hq⟩ := State.ffwdEnabled_iff.1 he
  simp [hb, hq] at h

/-- A QR-STEP while idle or at an index that is not its own (R122; log 7). -/
theorem qrStep_refused {s : State} {r : Fin 10} (mnemonic : String) (slot : Fin 8)
    (h : s.busy = false ∨ s.q.val ≠ 8 * r.val + slot.val) :
    qrStep mnemonic r slot s = .refused (.notEnabled mnemonic) := by
  refine if_neg fun he => ?_
  obtain ⟨hb, hq⟩ := State.slotEnabled_iff.1 he
  simp [hb, hq] at h

/-- Settles O36: each guard fails. -/
theorem microStepsRefusedWhenNotEnabled : Obligations.MicroStepsRefusedWhenNotEnabled := fun _ =>
  ⟨exec_acceptNext_refused, exec_ffwd_refused, fun _ =>
    ⟨qrStep_refused "QR_C0" 0, qrStep_refused "QR_C1" 1, qrStep_refused "QR_C2" 2, qrStep_refused "QR_C3" 3,
      qrStep_refused "QR_D0" 4, qrStep_refused "QR_D1" 5, qrStep_refused "QR_D2" 6, qrStep_refused "QR_D3" 7⟩⟩

/-! ### What a step takes and runs -/

/-- Settles O51: a busy block takes the RESET on its line, delivers, or does a quarter round; none of these touches the
channel. -/
theorem requestsHeldWhileBusy : Obligations.RequestsHeldWhileBusy := by
  intro s t hb hstep
  cases hr : s.resetLine with
  | true =>
    obtain rfl := Host.Outcome.next.inj ((step_resetLine hr).symm.trans hstep)
    rfl
  | false =>
    rcases decodeIndex_seqIndex s.q with ⟨hq, _⟩ | ⟨r, slot, hq, _⟩
    · obtain rfl := Host.Outcome.next.inj ((step_deliver hr hb hq).symm.trans hstep)
      rfl
    · obtain rfl := Host.Outcome.next.inj ((step_microOp hr hb hq).symm.trans hstep)
      rfl

/-- The only code of NEXT is 2 (R46). -/
theorem decodeRequest_eq_next_iff {r : Request} : decodeRequest r = .next ↔ r.op = 2 := by
  rcases decodeRequest_cases r with ⟨ho, hi⟩ | ⟨ho, hi⟩ | ⟨ho, hi⟩ | ⟨ho, hi⟩ <;> simp [ho, hi]

/-- The operation an idle block runs for a request (R121, R125). -/
theorem State.issue_decodeRequest {s : State} (hb : s.busy = false) (r : Request) :
    s.issue (decodeRequest r) =
      if r.op = 2 ∧ s.level = .microStep ∧ s.fault = .ok ∧ s.loaded = true then .acceptNext else decodeRequest r := by
  simp only [State.issue, decodeRequest_eq_next_iff, State.acceptEnabled_iff, hb, true_and]

/-- Settles O47: one lemma for each phase and each head of the channel; a request runs what it is issued as. -/
theorem stepRunsDecodedOperation : Obligations.StepRunsDecodedOperation := by
  intro s hr
  refine ⟨fun hb _ hi => step_busy hr hb hi, fun hb => ⟨step_idle hr hb, fun _ => step_inlineReset hr hb, ?_⟩⟩
  intro r rest hc
  rw [step_request hr hb hc, State.issue_decodeRequest (s := { s with channel := rest }) hb]
  exact apply_ite (exec · _) _ _ _

end Sys2Proof.Machine

/-! PROOFS of the family 60_exceptions: the fault codes, what raises a fault and what a recorded fault blocks, the one
response of a command, the lifetime of a fault, and two generators that share a key and a nonce. -/

namespace Sys2Proof.Machine

/-! ### The codes -/

theorem Status.code_injective : Function.Injective Status.code := by
  intro k l
  cases k <;> cases l <;> decide

/-- Settles O3: the five codes are those of the definition, and no two are equal. -/
theorem faultCodes : Obligations.FaultCodes := ⟨rfl, rfl, rfl, rfl, rfl, fun _ _ h => Status.code_injective h⟩

/-! ### Commands while a fault is recorded, and commands that raise one -/

theorem State.init_of_faulted {s : State} (h : s.fault ≠ .ok) (key nonce : List Byte) (ctr : Word) :
    s.init key nonce ctr = s.respond none := State.unlessFaulted_faulted h _

theorem State.next_of_faulted {s : State} (h : s.fault ≠ .ok) : s.next = s.respond none :=
  State.unlessFaulted_faulted h _

theorem State.reserved_of_faulted {s : State} (h : s.fault ≠ .ok) : s.reserved = s.respond none :=
  State.unlessFaulted_faulted h _

/-- NEXT with no fault recorded and nothing loaded (R143). -/
theorem State.next_of_not_loaded {s : State} (hf : s.fault = .ok) (hl : s.loaded = false) :
    s.next = s.raise .notLoaded := by
  simp [State.next, State.unlessFaulted_ok hf, hl]

/-- The reserved code with no fault recorded (R144). -/
theorem State.reserved_of_no_fault {s : State} (hf : s.fault = .ok) : s.reserved = s.raise .illegalCommand :=
  State.unlessFaulted_ok hf _

/-- Settles O26: NEXT takes the fault, which writes the fault and the response only. -/
theorem nextBeforeInitFaults : Obligations.NextBeforeInitFaults := fun _ hf hl =>
  congrArg Host.Outcome.next (State.next_of_not_loaded hf hl)

/-- Settles O27: the reserved code takes its fault without a look at `loaded`. -/
theorem reservedCodeFaults : Obligations.ReservedCodeFaults := fun _ hf =>
  congrArg Host.Outcome.next (State.reserved_of_no_fault hf)

/-- Settles O28: the three commands answer with the recorded fault; NOP never answers. -/
theorem recordedFaultBlocksCommands : Obligations.RecordedFaultBlocksCommands := fun s key nonce ctr hf =>
  ⟨congrArg Host.Outcome.next (State.init_of_faulted hf key nonce ctr),
    congrArg Host.Outcome.next (State.next_of_faulted hf), congrArg Host.Outcome.next (State.reserved_of_faulted hf),
    nopDoesNothing s⟩

/-! ### One command, one response -/

/-- From `s` to `t` one response is delivered, with status `k`, which is also the fault field of `t`; a status other than
0 comes without data, and then the fault and the response are all that is written (R52, R146, R147). -/
def State.AnsweredWith (s t : State) (k : Status) : Prop :=
  ∃ data : Option Block, t.fault = k ∧ t.responses = s.responses ++ [⟨k, data⟩] ∧
    (k ≠ .ok → data = none ∧ t = { s with fault := k, responses := s.responses ++ [⟨k, none⟩] })

theorem State.answeredWith_respond_none (s : State) : s.AnsweredWith (s.respond none) s.fault :=
  ⟨none, rfl, rfl, fun _ => ⟨rfl, rfl⟩⟩

theorem State.answeredWith_raise (s : State) (k : Status) : s.AnsweredWith (s.raise k) k :=
  ⟨none, rfl, rfl, fun _ => ⟨rfl, rfl⟩⟩

theorem State.answeredWith_load {s : State} (hf : s.fault = .ok) (k : Vector Byte 32) (n : Vector Byte 12)
    (c : Word) : s.AnsweredWith (s.load k n c) .ok :=
  ⟨none, hf, by rw [State.load_responses, hf], fun h => absurd rfl h⟩

theorem State.answeredWith_advance {s : State} (hf : s.fault = .ok) : s.AnsweredWith s.advance .ok :=
  ⟨some (blockTransform s.words), hf, by rw [State.advance_responses, hf], fun h => absurd rfl h⟩

/-- INIT's part of the priority order: the key's length before the nonce's (R66, R145). -/
theorem State.init_answeredWith_verdict (s : State) (key nonce : List Byte) (ctr : Word) :
    s.AnsweredWith (s.init key nonce ctr) (s.verdict (.init key nonce ctr)) := by
  rcases s.init_cases key nonce ctr with ⟨hf, h⟩ | ⟨hf, hk, h⟩ | ⟨hf, hk, hn, h⟩ | ⟨hf, hk, hn, h⟩ <;> rw [h]
  · simpa [State.verdict, hf] using s.answeredWith_respond_none
  · simpa [State.verdict, hf, hk] using s.answeredWith_raise .invalidKeyLength
  · simpa [State.verdict, hf, hk, hn] using s.answeredWith_raise .invalidNonceLength
  · simpa [State.verdict, hf, hk, hn] using State.answeredWith_load hf _ _ ctr

/-- NEXT's part of the priority order (R143, R145). -/
theorem State.next_answeredWith_verdict (s : State) : s.AnsweredWith s.next (s.verdict .next) := by
  rcases s.next_cases with ⟨hf, h⟩ | ⟨hf, hl, h⟩ | ⟨hf, hl, h⟩ <;> rw [h]
  · simpa [State.verdict, hf] using s.answeredWith_respond_none
  · simpa [State.verdict, hf, hl] using s.answeredWith_raise .notLoaded
  · simpa [State.verdict, hf, hl] using State.answeredWith_advance hf

/-- The reserved code's part of the priority order (R144, R145). -/
theorem State.reserved_answeredWith_verdict (s : State) : s.AnsweredWith s.reserved (s.verdict .rsvd) := by
  rcases s.reserved_cases with ⟨hf, h⟩ | ⟨hf, h⟩ <;> rw [h]
  · simpa [State.verdict, hf] using s.answeredWith_respond_none
  · simpa [State.verdict, hf] using s.answeredWith_raise .illegalCommand

/-- Settles O29: each of the three commands answers with its verdict. -/
theorem onePriorityOneResponse : Obligations.OnePriorityOneResponse := by
  rintro s _ (rfl | rfl | ⟨key, nonce, ctr, rfl⟩)
  · obtain ⟨data, h⟩ := s.next_answeredWith_verdict
    exact ⟨_, data, rfl, h⟩
  · obtain ⟨data, h⟩ := s.reserved_answeredWith_verdict
    exact ⟨_, data, rfl, h⟩
  · obtain ⟨data, h⟩ := s.init_answeredWith_verdict key nonce ctr
    exact ⟨_, data, rfl, h⟩

/-! ### A recorded fault stays -/

/-- Settles O54: ACCEPT-NEXT is not taken while a fault is recorded, the three commands that respond only answer with it,
and the other steps but RESET do not write it. -/
theorem faultIsStickyUntilReset : Obligations.FaultIsStickyUntilReset := by
  intro s t hf hstep
  cases step_cases hstep with
  | resetLine h => exact .inr ⟨.inl h, rfl, rfl⟩
  | slot => exact .inl rfl
  | ffwd => exact .inl rfl
  | idle => exact .inl rfl
  | reset _ _ rest hc => exact .inr ⟨.inr ⟨rest, hc⟩, rfl, rfl⟩
  | nop => exact .inl rfl
  | init _ _ r rest =>
    rw [State.init_of_faulted (s := { s with channel := rest }) hf]
    exact .inl rfl
  | accept _ _ _ _ _ _ _ hok => exact absurd hok hf
  | next _ _ _ rest =>
    rw [State.next_of_faulted (s := { s with channel := rest }) hf]
    exact .inl rfl
  | rsvd _ _ _ rest =>
    rw [State.reserved_of_faulted (s := { s with channel := rest }) hf]
    exact .inl rfl

/-! ### Two generators with one key and nonce -/

/-- On a loaded, fault-free block the last response of NEXTN (n + 1) is the block of counter value c + n (R57, R83). -/
theorem exec_nextn_last_response {s : State} (n : Nat) (hf : s.fault = .ok) (hl : s.loaded = true) :
    ∃ t : State, exec (.nextn (n + 1)) s = .next t ∧
      t.responses.getLast? =
        some ⟨.ok, some (blockTransform (wordsOf s.key (s.ctr + BitVec.ofNat 32 n) s.nonce))⟩ := by
  obtain ⟨w', hexec⟩ := nextnYieldsSuccessiveBlocks s (n + 1) hf hl
  exact ⟨_, hexec, by simp [List.range_succ]⟩

/-- Settles O32: both last blocks are those of the counter value c + k + j, where c is the lower of the two counters. -/
theorem instancesShareKeystream : Obligations.InstancesShareKeystream := by
  intro a b k j haf hbf hal hbl hkey hnonce hctr
  obtain ⟨t, ht, hlast⟩ := exec_nextn_last_response j hbf hbl
  obtain ⟨u, hu, hlast'⟩ := exec_nextn_last_response (k + j) haf hal
  have hsum : b.ctr + BitVec.ofNat 32 j = a.ctr + BitVec.ofNat 32 (k + j) := by
    rw [hctr, BitVec.add_assoc, BitVec.ofNat_add]
  rw [hkey, hnonce, hsum] at hlast
  exact ⟨t, u, _, ht, hu, hlast, hlast'⟩

end Sys2Proof.Machine

/-! PROOFS of the family 70_reset_and_hazards: what RESET clears and keeps, and that nothing of the old generator is
left after it. -/

namespace Sys2Proof.Machine

/-- RESET empties the block in every state (R160). -/
theorem exec_reset (s : State) : exec .reset s = .next s.clear := rfl

/-- Settles O39: the next state is `s.clear`, which writes the first three fields and not the other five. -/
theorem resetEmptiesBlock : Obligations.ResetEmptiesBlock := fun s =>
  ⟨s.clear, exec_reset s, s.clear_loaded, s.clear_fault, s.clear_busy, s.clear_responses, s.clear_channel,
    s.clear_resetLine, s.clear_level, s.clear_result⟩

/-- RESET reads only what it keeps and the number of its draw, no word of the generator (R162; log 2). -/
theorem State.clear_congr {s t : State} (hlevel : s.level = t.level) (hline : s.resetLine = t.resetLine)
    (hchannel : s.channel = t.channel) (hresponses : s.responses = t.responses) (hdraws : s.draws = t.draws)
    (hresult : s.result = t.result) : s.clear = t.clear := by
  simp only [State.clear, hlevel, hline, hchannel, hresponses, hdraws, hresult]

/-- Settles O40: the two states agree on all that RESET reads. -/
theorem resetForgets : Obligations.ResetForgets := by
  intro s key ctr nonce w q loaded busy fault
  rw [exec_reset, exec_reset]
  exact congrArg Host.Outcome.next (State.clear_congr rfl rfl rfl rfl rfl rfl)

end Sys2Proof.Machine
